-- ==== Sys2Proof/Word.lean ====
section
/-! DEFINITION. The three widths of the GGU: the byte of MEM, the 32-bit word of the register port and of a command, and the
128-bit block (spec/00_scope.md R7, R8, R9). -/

namespace Sys2Proof

/-- One byte of the operand memory (R32). -/
abbrev Byte := BitVec 8

/-- A 32-bit word: a descriptor register, a register-port datum, a command word (R8, R22, R90). -/
abbrev Word := BitVec 32

/-- A block: `bits128` of R9; bit 127 is the leftmost, and byte 0 is bits 127:120. -/
abbrev Block := BitVec 128

end Sys2Proof
end

