-- ==== Sys2Proof/Syntax.lean ====
section
/-! DEFINITION. The twelve commands of the GGU command set, version 1 (spec/30_encoding.md R92). -/

namespace Sys2Proof

/-- One constructor per row of spec/opcode_table.json. Every operand but GCMCFG's immediate is an implicit register (R90). -/
inductive Instr where
  /-- `NOP`, R200. -/
  | nop
  /-- `GHINIT`, R113. -/
  | ghinit
  /-- `GHBLK`, R114. -/
  | ghblk
  /-- `GHASH`, R116. -/
  | ghash
  /-- `HDERIVE`, R140. -/
  | hderive
  /-- `J0DERIVE`, R144. -/
  | j0derive
  /-- `INC32`, R142. -/
  | inc32
  /-- `GCTR`, R146. -/
  | gctr
  /-- `GCMCFG t`, R171: `t` is the tag length in bytes, the 8-bit unsigned ARG (R93). -/
  | gcmcfg (t : Nat)
  /-- `GCMENC`, R174. -/
  | gcmenc
  /-- `GCMDEC`, R180. -/
  | gcmdec
  /-- `SRESET`, R201. -/
  | sreset
deriving DecidableEq, Repr

end Sys2Proof
end

