-- ==== Sys2Proof/WellFormed.lean ====
section
/-! DEFINITION. Which instruction terms stand for a command word. -/

namespace Sys2Proof

/-- The one check of the encoding: GCMCFG's immediate is an 8-bit unsigned number (R93). An illegal TAG LENGTH is well-formed:
"GCMCFG with an illegal ARG is a legal encoding that raises E_TAGLEN" (R94(e)). -/
def Instr.wf : Instr → Bool
  | .nop => true
  | .ghinit => true
  | .ghblk => true
  | .ghash => true
  | .hderive => true
  | .j0derive => true
  | .inc32 => true
  | .gctr => true
  | .gcmcfg t => decide (t < 256)
  | .gcmenc => true
  | .gcmdec => true
  | .sreset => true

/-- `i` is well-formed. -/
abbrev Instr.WellFormed (i : Instr) : Prop := i.wf = true

end Sys2Proof
end

