-- ==== Sys2Proof/Decode.lean ====
section
/-! DEFINITION. The decoder of command words, total on all 2^32 words (spec/30_encoding.md R90, R91, R94), and the encoder. -/

namespace Sys2Proof

/-- Why a word selects no command: the three tests of R91, in its order. Each raises E_CMD. -/
inductive DecodeError where
  /-- `w[31:16] != 0`. -/
  | zeroFieldNotZero
  /-- `w[7:0]` is none of the twelve opcodes. -/
  | opcodeUnassigned
  /-- `w[7:0] != 0x20 and w[15:8] != 0`. -/
  | argNotZero
deriving DecidableEq, Repr

/-- What a word decodes to. -/
inductive Decoded where
  | instr (i : Instr)
  | rejected (e : DecodeError)
deriving DecidableEq, Repr

/-- Field OPC, bits 7:0 (R90). -/
def opcField (w : Word) : Byte := w.extractLsb' 0 8

/-- Field ARG, bits 15:8 (R90). -/
def argField (w : Word) : Byte := w.extractLsb' 8 8

/-- Field ZERO, bits 31:16 (R90). -/
def zeroField (w : Word) : BitVec 16 := w.extractLsb' 16 16

/-- The opcode map of R92. -/
def instrOf (opc arg : Byte) : Option Instr :=
  match opc.toNat with
  | 0x00 => some .nop
  | 0x01 => some .ghinit
  | 0x02 => some .ghblk
  | 0x03 => some .ghash
  | 0x10 => some .hderive
  | 0x11 => some .j0derive
  | 0x12 => some .inc32
  | 0x13 => some .gctr
  | 0x20 => some (.gcmcfg arg.toNat)
  | 0x21 => some .gcmenc
  | 0x22 => some .gcmdec
  | 0x3F => some .sreset
  | _ => none

/-- Decoding a word written to CMD: the tests of R91 in their order. -/
def decodeWord (w : Word) : Decoded :=
  if zeroField w ≠ 0 then .rejected .zeroFieldNotZero
  else
    match instrOf (opcField w) (argField w) with
    | none => .rejected .opcodeUnassigned
    | some i => if opcField w ≠ 0x20 ∧ argField w ≠ 0 then .rejected .argNotZero else .instr i

/-- The command word of `w`'s low `nbits` bits. A command is one 32-bit word (R95). -/
def tableWord (nbits w : Nat) : Word := BitVec.ofNat 32 (w % 2 ^ nbits)

/-- What the decoder reads from a row of spec/opcode_table.json filled to the bits `w`. -/
def decodeTableWord (nbits w : Nat) : Option Instr :=
  match decodeWord (tableWord nbits w) with
  | .instr i => some i
  | .rejected _ => none

/-- The OPC of each command (R92). -/
def opcodeOf : Instr → Byte
  | .nop => 0x00
  | .ghinit => 0x01
  | .ghblk => 0x02
  | .ghash => 0x03
  | .hderive => 0x10
  | .j0derive => 0x11
  | .inc32 => 0x12
  | .gctr => 0x13
  | .gcmcfg _ => 0x20
  | .gcmenc => 0x21
  | .gcmdec => 0x22
  | .sreset => 0x3F

/-- The ARG of each command: "used only by GCMCFG; must be 0 for every other command" (R90). -/
def argOf : Instr → Byte
  | .gcmcfg t => BitVec.ofNat 8 t
  | .nop => 0
  | .ghinit => 0
  | .ghblk => 0
  | .ghash => 0
  | .hderive => 0
  | .j0derive => 0
  | .inc32 => 0
  | .gctr => 0
  | .gcmenc => 0
  | .gcmdec => 0
  | .sreset => 0

/-- The command word of an instruction: ZERO, ARG, OPC from the left (R90). -/
def encode (i : Instr) : Word := (0#16 ++ argOf i) ++ opcodeOf i

end Sys2Proof
end

