-- ==== Sys2Proof/Machine/Bytes.lean ====
section
/-! DEFINITION. Byte strings and their blocks (spec/00_scope.md R9, R10; spec/20_memory.md R61, R66). A byte string is a
`List Byte`; byte 0 is the first. -/

namespace Sys2Proof.Machine

/-- `zeros(n)`: n zero bytes. -/
def zeros (n : Nat) : List Byte := List.replicate n 0

/-- `blk(s)`: the block whose byte j is `s[j]`, so `s` read as a big-endian number (R10). For 16 bytes. -/
def blk (s : List Byte) : Block := s.foldl (fun acc b => acc <<< 8 ||| b.setWidth 128) 0

/-- Byte j of a block: `B[127-8j : 120-8j]` (R9). -/
def blockByte (b : Block) (j : Nat) : Byte := b.extractLsb' (120 - 8 * j) 8

/-- `bytes16(B)`: the inverse of `blk` (R10). -/
def bytes16 (b : Block) : List Byte := (List.range 16).map (blockByte b)

/-- `left(t, B) = bytes16(B)[0..t)` (R10). -/
def left (t : Nat) (b : Block) : List Byte := (bytes16 b).take t

/-- `u64be(n)`: the 8-byte big-endian string of n < 2^64 (R10). -/
def u64be (n : Nat) : List Byte := (List.range 8).map fun j => BitVec.ofNat 8 (n >>> (56 - 8 * j))

/-- `pad128(s)`: zero bytes up to the next 16-byte boundary (R10). -/
def pad128 (s : List Byte) : List Byte := s ++ zeros ((16 - s.length % 16) % 16)

/-- `padblk(s) = blk(s || zeros(16 - len(s)))`, for 1 to 16 bytes (R66). -/
def padblk (s : List Byte) : Block := blk (s ++ zeros (16 - s.length))

/-- Byte-wise exclusive or. -/
def xorBytes (s t : List Byte) : List Byte := List.zipWith (· ^^^ ·) s t

/-- `nchunks(n) = (n + 15) div 16` (R66). -/
def nchunks (n : Nat) : Nat := (n + 15) / 16

/-- `chunk_addr(a, i) = a + 16*i`, on natural numbers (R66). -/
def chunkAddr (a i : Nat) : Nat := a + 16 * i

/-- `chunk_len(n, i) = min(16, n - 16*i)` (R66). -/
def chunkLen (n i : Nat) : Nat := min 16 (n - 16 * i)

/-- Word k of a block: `Rg.Wk = Rg[127-32k : 96-32k]` (R23). -/
def blockWord (b : Block) (k : Nat) : Word := b.extractLsb' (96 - 32 * k) 32

/-- Writing word k of a block "replaces those 32 bits and leaves the other 96", with `Rg = W0 || W1 || W2 || W3` (R23). -/
def setBlockWord (b : Block) (k : Nat) (v : Word) : Block :=
  let word (j : Nat) : Word := if j = k then v else blockWord b j
  word 0 ++ word 1 ++ word 2 ++ word 3

end Sys2Proof.Machine
end

