-- ==== Sys2Proof/Machine/Gcm.lean ====
section
/-! DEFINITION. The pure functions of the spec: the GF(2^128) multiplier and GHASH (spec/40_ghash.md R110, R115), `inc32`,
`J0_of`, `GCTR_fn`, `lenblock` (41_gcm_primitives.md R141, R143, R145, R149), `tag_of` and the two GCM functions
(42_gcm_aead.md R170, R172). The block cipher under its key is the argument `E`. -/

namespace Sys2Proof.Machine

/-- The reduction constant R: 0xE1 followed by 120 zero bits (R110). -/
def gfR : Block := 0xE1000000000000000000000000000000

/-- One step of the ladder on V: shift right, and exclusive-or R when the bit shifted out is 1 (R110). -/
def gfShift (v : Block) : Block := if v.getLsbD 0 then (v >>> 1) ^^^ gfR else v >>> 1

/-- The iterations of R110 for the bits `n - 1` down to 0 of X; the test of `X[i]` uses V before that iteration's shift. -/
def gfLadder (x : Block) : Nat → Block → Block → Block
  | 0, z, _ => z
  | n + 1, z, v => gfLadder x n (if x.getLsbD n then z ^^^ v else z) (gfShift v)

/-- `gfmul(X, V0)` (R110): 128 iterations, leftmost bit of X first, Z from 0. (Irreducible: proofs
cite its laws, and the elaborator does not unroll the ladder.) -/
@[irreducible] def gfmul (x v : Block) : Block := gfLadder x 128 0 v

/-- The block loop of `GHASH_H` over the first `k` blocks of `x`, from the accumulator `y` (R115). -/
def ghashBlocks (h : Block) : Nat → Block → List Byte → Block
  | 0, y, _ => y
  | k + 1, y, x => ghashBlocks h k (gfmul (y ^^^ blk (x.take 16)) h) (x.drop 16)

/-- The block loop over all of `x`, from the accumulator `y` (R115). -/
def ghashFrom (h y : Block) (x : List Byte) : Block := ghashBlocks h (x.length / 16) y x

/-- `GHASH_H(X)`, for `len(X) mod 16 = 0` (R115). -/
def ghashH (h : Block) (x : List Byte) : Block := ghashFrom h 0 x

/-- `inc32(B) = B[127:32] || ((B[31:0] + 1) mod 2^32)` (R141). -/
def inc32 (b : Block) : Block := b.extractLsb' 32 96 ++ (b.extractLsb' 0 32 + 1)

/-- `J0_of(H, IV)` (R143). -/
def j0Of (h : Block) (iv : List Byte) : Block :=
  if iv.length = 12 then blk (iv ++ [0x00, 0x00, 0x00, 0x01])
  else ghashH h (pad128 iv ++ zeros 8 ++ u64be (8 * iv.length))

/-- The loop of `GCTR_fn` over the first `k` chunks of `x` from the counter block `cb` (R145). -/
def gctrChunks (E : Block → Block) : Nat → Block → List Byte → List Byte × Block
  | 0, cb, _ => ([], cb)
  | k + 1, cb, x =>
    let s := x.take 16
    let rest := gctrChunks E k (inc32 cb) (x.drop 16)
    (xorBytes s (left s.length (E cb)) ++ rest.1, rest.2)

/-- `GCTR_fn(ICB, X)`: the output string and the final counter block (R145). -/
def gctrFn (E : Block → Block) (icb : Block) (x : List Byte) : List Byte × Block :=
  gctrChunks E (nchunks x.length) icb x

/-- `lenblock(a, c)` for the byte lengths of the AAD and of the text (R149). -/
def lenblock (a c : Nat) : Block := blk (u64be (8 * a) ++ u64be (8 * c))

/-- `tag_of(full, t)`: the leftmost t bytes of `full`, then zero bytes (R172). -/
def tagOf (full : Block) (t : Nat) : Block := (full >>> (128 - 8 * t)) <<< (128 - 8 * t)

/-- The bits compared by GCMDEC: `B[127 : 128-8t]` (R180, R182). -/
def tagPrefix (b : Block) (t : Nat) : Block := b >>> (128 - 8 * t)

/-- The hash input of step 5: `pad128(A) || pad128(C) || u64be(8*len(A)) || u64be(8*len(C))` (R170). -/
def hashInput (aad c : List Byte) : List Byte :=
  pad128 aad ++ pad128 c ++ u64be (8 * aad.length) ++ u64be (8 * c.length)

/-- S, "the GHASH output over AAD, ciphertext and lengths" (R15, R170). -/
def ghashS (E : Block → Block) (aad c : List Byte) : Block := ghashH (E 0) (hashInput aad c)

/-- `GCM_encrypt(t, IV, A, P)`: the ciphertext and the tag (R170). -/
def gcmEncrypt (E : Block → Block) (t : Nat) (iv aad p : List Byte) : List Byte × List Byte :=
  let h := E 0
  let j0 := j0Of h iv
  let c := (gctrFn E (inc32 j0) p).1
  let s := ghashH h (hashInput aad c)
  let tf := (gctrFn E j0 (bytes16 s)).1
  (c, tf.take t)

/-- `GCM_decrypt(t, IV, A, C, T)`: the plaintext, or none for AuthenticationError (R170). -/
def gcmDecrypt (E : Block → Block) (t : Nat) (iv aad c tag : List Byte) : Option (List Byte) :=
  let h := E 0
  let j0 := j0Of h iv
  let s := ghashH h (hashInput aad c)
  let t2 := left t (s ^^^ E j0)
  if t2 ≠ tag then none else some (gctrFn E (inc32 j0) c).1

end Sys2Proof.Machine
end

