-- ==== Sys2Proof/Config.lean ====
section
/-! DEFINITION. What the spec leaves OPEN (spec/00_scope.md R8; spec/92_eei_decisions.md, "Open parameters"; 10_state.md R36):
constants with no body, so that nothing can be proved of their values. -/

namespace Sys2Proof

/-- The key the external cipher holds: 16, 24 or 32 bytes (R7, R15 "Key (K)"). -/
inductive Key where
  | k128 (k : BitVec 128)
  | k192 (k : BitVec 192)
  | k256 (k : BitVec 256)
deriving DecidableEq, Repr, Inhabited

/-- The BlockCipher `E : Key → bits128 → bits128`, total and deterministic, OPEN (R8, R11). Log 5. -/
opaque Config.encrypt : Key → Block → Block

/-- The key in the external cipher at reset: "unspecified until the surrounding logic loads it" (R36). Log 5. -/
opaque Config.resetKey : Key

/-- `CipherFails`, OPEN (R8, R218): does the call number `n` (counted from reset) answer `fail`, where the state's list of
failure draws does not say. Log 6. -/
opaque Config.cipherFails : Nat → Bool

/-- The draw made once at reset for the byte of MEM at an address (R36, R60). Log 3. -/
opaque Config.powerOnByte : Nat → Byte

/-- The open value behind `Config.memSize`. -/
opaque Config.memSizeLess1 : BitVec 32

/-- `MEMSIZE`, OPEN: any natural number with `1 ≤ MEMSIZE ≤ 2^32` (R8). Log 4. -/
def Config.memSize : Nat := Config.memSizeLess1.toNat + 1

end Sys2Proof
end

