-- ==== Sys2Proof/Machine/State.lean ====
section
/-! DEFINITION. The state of one GGU (spec/10_state.md R20 to R37), the reasons a step can stop, and the state after reset. -/

namespace Sys2Proof.Machine

/-- The six errors a command can end with (spec/60_exceptions.md R213). -/
inductive ErrorCode where
  /-- GCMCFG with a tag length outside the supported set. -/
  | eTaglen
  /-- GHASH with LEN not a multiple of 16. -/
  | eAlign
  /-- A buffer range that is not valid. -/
  | eRange
  /-- A command word that does not decode. -/
  | eCmd
  /-- The recomputed tag and TAGIN differ. -/
  | eAuth
  /-- A `Cipher` call answered `fail`. -/
  | ePrim
deriving DecidableEq, Repr

/-- STATUS: its three fields; the reserved bits read as 0 and are no state (R20, R25). -/
structure Status where
  ok : Bool
  err : Bool
  errcode : BitVec 4
deriving DecidableEq, Repr

/-- MEM (R32): the bytes written since reset as (address, byte), addresses strictly rising (`Memory.wf`). An address that is
not listed holds no written byte. Log 3. -/
abbrev Memory := List Host.Cell

/-- One answer of the external cipher fixed beforehand: under `key`, the block
`input` is answered by `output` (R11). Log 5. -/
structure CipherAnswer where
  key : Key
  input : Block
  output : Block
deriving DecidableEq, Repr

/-- The external BlockCipher as the GGU's cipher port sees it (R11, R34(b), R35, R218). -/
structure CipherPort where
  /-- The key K it holds; not GGU state (R34(b)). -/
  key : Key
  /-- Answers of `E` fixed beforehand; every other answer is `Config.encrypt`'s. Log 5. -/
  known : List CipherAnswer
  /-- The failure draws of the next calls, next first; past its end `Config.cipherFails` draws. Log 6. -/
  fails : List Bool
  /-- The blocks asked so far, oldest first: the observable order of Cipher calls (R14). Log 7. -/
  calls : List Block
deriving DecidableEq, Repr

/-- One access of the host, or of the logic around the block: one step of the model (R13, R233). Log 1. -/
inductive HostAccess where
  /-- A read of `bytes` bytes at the byte offset `off` of the register space (R29). -/
  | regRead (off bytes : Nat)
  /-- A write of `bytes` bytes at the byte offset `off` of the register space, `v` on the port (R27, R29). -/
  | regWrite (off bytes : Nat) (v : Word)
  /-- `HostMemRead(addr, n)` (R62). The count has no width of its own: log 17. -/
  | memRead (addr n : Nat)
  /-- `HostMemWrite(addr, n, s)` with `s = data` and `n` its length (R62). Log 17. -/
  | memWrite (addr : Nat) (data : List Byte)
  /-- The surrounding logic changes the key of the external cipher (R34(b)). -/
  | loadKey (k : Key)
deriving DecidableEq, Repr

/-- What the last host access got back (R233). Log 2. -/
inductive HostReply where
  | nothing
  | word (v : Word)
  | bytes (s : List Byte)
deriving DecidableEq, Repr

/-- The whole state. -/
structure State where
  /-- The GHASH subkey (R21). -/
  h : Block
  /-- The GHASH accumulator (R21). -/
  y : Block
  /-- The block GHBLK absorbs (R21). -/
  din : Block
  /-- The pre-counter block (R21). -/
  j0 : Block
  /-- The counter block (R21). -/
  cb : Block
  /-- The tag encryption produced; read only for the host (R21). -/
  tag : Block
  /-- The tag decryption verifies (R21). -/
  tagin : Block
  /-- Address of the IV (R22). -/
  ivaddr : Word
  /-- Byte length of the IV (R22). -/
  ivlen : Word
  /-- Address of the AAD (R22). -/
  aadaddr : Word
  /-- Byte length of the AAD (R22). -/
  aadlen : Word
  /-- Address of the input text (R22). -/
  srcaddr : Word
  /-- Address of the output text (R22). -/
  dstaddr : Word
  /-- Byte length of the input and the output text (R22). -/
  len : Word
  /-- CFG.TAGLEN, bits 4:0 of CFG (R26). -/
  taglen : BitVec 5
  /-- STATUS (R25). -/
  status : Status
  /-- MEM (R32). -/
  mem : Memory
  /-- The parameter MEMSIZE (R8); no step changes it. Log 4. -/
  memSize : Nat
  /-- The external BlockCipher (R11). -/
  cipher : CipherPort
  /-- The host accesses to come, next first. Log 1. -/
  host : List HostAccess
  /-- What the last host access got back. Log 2. -/
  reply : HostReply
deriving DecidableEq, Repr

/-- Reasons the machine stops with a fault: none. Every error of the spec is reported in STATUS and the machine goes on (R210,
R212, R222), so the type is empty, and no step can answer a fault. -/
inductive Fault where
deriving DecidableEq, Repr

/-- Reasons a step is refused. -/
inductive Refusal where
  /-- An arm of exec with no meaning yet; no arm raises it now. Safe. -/
  | notModelled (mnemonic : String)
  /-- Raised by the register port on an access that is not an aligned 32-bit word at an offset of 0x00 to 0xFC: "not a
  transaction of the port: the model refuses it (gives it no meaning)" (R29(a)). Safe. Log 8. -/
  | notARegisterTransaction
  /-- Raised by the memory port on an access of 0 bytes or outside MEMSIZE: "an invalid host range is not a transaction (the
  model refuses it)" (R62). Safe. Log 8. -/
  | notAMemoryTransaction
deriving DecidableEq, Repr

/-- The state right after the hardware reset (R36, R240). The open constants stand where the spec gives no value. -/
def State.reset : State where
  h := 0
  y := 0
  din := 0
  j0 := 0
  cb := 0
  tag := 0
  tagin := 0
  ivaddr := 0
  ivlen := 0
  aadaddr := 0
  aadlen := 0
  srcaddr := 0
  dstaddr := 0
  len := 0
  taglen := 16
  status := { ok := false, err := false, errcode := 0 }
  mem := []
  memSize := Config.memSize
  cipher := { key := Config.resetKey, known := [], fails := [], calls := [] }
  host := []
  reply := .nothing

end Sys2Proof.Machine
end

