-- ==== Sys2Proof/Machine/Flags.lean ====
section
/-! DEFINITION. STATUS and CFG: how a command's end writes STATUS (spec/60_exceptions.md R211 to R213) and the words the host
reads (spec/10_state.md R25, R26). -/

namespace Sys2Proof.Machine

/-- The codes of R213; 0 is no error. -/
def errorCode : ErrorCode → BitVec 4
  | .eTaglen => 1
  | .eAlign => 2
  | .eRange => 3
  | .eCmd => 4
  | .eAuth => 5
  | .ePrim => 6

/-- STATUS after `done_ok` (R211). -/
def statusOk : Status := { ok := true, err := false, errcode := 0 }

/-- STATUS after `raise e` (R212). -/
def statusError (e : ErrorCode) : Status := { ok := false, err := true, errcode := errorCode e }

/-- STATUS after reset and SRESET (R36, R201). -/
def statusClear : Status := { ok := false, err := false, errcode := 0 }

/-- A one-bit field at bit `n` of a word. -/
def bitAt (n : Nat) (b : Bool) : Word := (BitVec.ofBool b).setWidth 32 <<< n

/-- The STATUS word: OK bit 0, ERR bit 1, ERRCODE bits 7:4, the rest 0 (R25). -/
def statusWord (st : Status) : Word := bitAt 0 st.ok ||| bitAt 1 st.err ||| (st.errcode.setWidth 32 <<< 4)

/-- The CFG word: TAGLEN in bits 4:0, the rest 0 (R26). -/
def cfgWord (taglen : BitVec 5) : Word := taglen.setWidth 32

end Sys2Proof.Machine
end

