-- ==== Sys2Proof/Machine/Ops.lean ====
section
/-! DEFINITION. The pseudocode primitives of spec/00_scope.md R11 over the state: MEM, the data and descriptor registers, the
cipher port, and the two ways a command ends (`done_ok` and `raise`, spec/60_exceptions.md R210 to R212). -/

namespace Sys2Proof.Machine

/-! ### MEM -/

/-- What `Memory.get` answers for an address that is not listed: no written byte. Log 3. -/
def Memory.unlisted : Option Byte := none

/-- The canonical form: addresses strictly rising. (No entry equals `Memory.unlisted`, which is no byte.) -/
abbrev Memory.wf (m : Memory) : Prop := (m.map Prod.fst).Pairwise (· < ·)

/-- The byte most recently written at an address, if any. -/
def Memory.get : Memory → Nat → Option Byte
  | [], _ => Memory.unlisted
  | c :: m, a => if a = c.1 then some c.2 else Memory.get m a

/-- Writes one byte, keeping the list sorted. -/
def Memory.set : Memory → Nat → Byte → Memory
  | [], a, b => [(a, b)]
  | c :: m, a, b =>
    if a < c.1 then (a, b) :: c :: m
    else if a = c.1 then (a, b) :: m
    else c :: Memory.set m a b

/-- Writes a byte string, lowest address first. -/
def Memory.setBytes : Memory → Nat → List Byte → Memory
  | m, _, [] => m
  | m, a, b :: bs => Memory.setBytes (Memory.set m a b) (a + 1) bs

/-- The read of one byte: "the byte most recently written there"; "if nothing has written it since reset it returns the reset
draw" (R60). Log 3. -/
def readByte (s : State) (a : Nat) : Byte :=
  match Memory.get s.mem a with
  | some b => b
  | none => Config.powerOnByte a

/-- `MemRead(addr, n)`: n bytes, lowest address first (R11). -/
def memRead (s : State) (addr n : Nat) : List Byte := (List.range n).map fun i => readByte s (addr + i)

/-- `MemWrite(addr, n, s)` with n the length of `data`: `data[0]` at `addr` (R11). -/
def memWrite (addr : Nat) (data : List Byte) (s : State) : State :=
  { s with mem := Memory.setBytes s.mem addr data }

/-! ### Registers by name -/

/-- The seven data registers (R21). -/
inductive DataReg where
  | h | y | din | j0 | cb | tag | tagin
deriving DecidableEq, Repr

/-- The seven descriptor registers (R22). -/
inductive DescReg where
  | ivaddr | ivlen | aadaddr | aadlen | srcaddr | dstaddr | len
deriving DecidableEq, Repr

/-- `x[Rg]` for a data register. -/
def getData (s : State) : DataReg → Block
  | .h => s.h
  | .y => s.y
  | .din => s.din
  | .j0 => s.j0
  | .cb => s.cb
  | .tag => s.tag
  | .tagin => s.tagin

/-- `x[Rg] <- v` for a data register. -/
def setData (r : DataReg) (v : Block) (s : State) : State :=
  match r with
  | .h => { s with h := v }
  | .y => { s with y := v }
  | .din => { s with din := v }
  | .j0 => { s with j0 := v }
  | .cb => { s with cb := v }
  | .tag => { s with tag := v }
  | .tagin => { s with tagin := v }

/-- `x[NAME]` for a descriptor register. -/
def getDesc (s : State) : DescReg → Word
  | .ivaddr => s.ivaddr
  | .ivlen => s.ivlen
  | .aadaddr => s.aadaddr
  | .aadlen => s.aadlen
  | .srcaddr => s.srcaddr
  | .dstaddr => s.dstaddr
  | .len => s.len

/-- `x[NAME] <- v` for a descriptor register. -/
def setDesc (r : DescReg) (v : Word) (s : State) : State :=
  match r with
  | .ivaddr => { s with ivaddr := v }
  | .ivlen => { s with ivlen := v }
  | .aadaddr => { s with aadaddr := v }
  | .aadlen => { s with aadlen := v }
  | .srcaddr => { s with srcaddr := v }
  | .dstaddr => { s with dstaddr := v }
  | .len => { s with len := v }

/-! ### The end of a command -/

/-- `done_ok` (R211). -/
def doneOk (s : State) : State := { s with status := statusOk }

/-- `raise e`: the GGU's whole exception entry. STATUS is written; "no state is saved, no mode changes, ... control goes
nowhere" (R212, R222). There is no return from it (R223). -/
def raise (e : ErrorCode) (s : State) : State := { s with status := statusError e }

/-- How far a command's micro-steps have come: still running, or over by an error at a micro-step, whose earlier effects
stand (R11 "`raise` ends the command at that point"). -/
inductive Progress where
  | running (s : State)
  | raised (e : ErrorCode) (s : State)
deriving DecidableEq, Repr

/-- The next micro-steps run only while none has raised. -/
def Progress.andThen : Progress → (State → Progress) → Progress
  | .running s, next => next s
  | .raised e s, _ => .raised e s

/-- The end of a command: `done_ok` when no micro-step raised (R210). -/
def Progress.finish : Progress → State
  | .running s => doneOk s
  | .raised e s => raise e s

/-- `for i = first to first + count - 1` over micro-steps (R11). -/
def forChunks (body : Nat → State → Progress) : (first count : Nat) → State → Progress
  | _, 0, s => .running s
  | i, k + 1, s => (body i s).andThen (forChunks body (i + 1) k)

/-! ### The cipher port -/

/-- `E(K, B)`: total and deterministic; an answer fixed beforehand, else the open `Config.encrypt` (R11). Log 5. -/
def encryptBlock (c : CipherPort) (b : Block) : Block :=
  match c.known.find? (fun r => r.key = c.key ∧ r.input = b) with
  | some r => r.output
  | none => Config.encrypt c.key b

/-- The draw of the k-th call from now: does it answer `fail` (R218). Log 6. -/
def callFails (c : CipherPort) (k : Nat) : Bool :=
  match c.fails[k]? with
  | some f => f
  | none => Config.cipherFails (c.calls.length + k)

/-- The cipher port after one more call, with block `b`: its draw is used up and the call is recorded. -/
def recordCall (b : Block) (c : CipherPort) : CipherPort :=
  { c with fails := c.fails.tail, calls := c.calls ++ [b] }

/-- `ks <- Cipher(b)` and the micro-steps after it: "call, and on `fail` raise" E_PRIM (R11, R218). -/
def withCipher (b : Block) (s : State) (next : Block → State → Progress) : Progress :=
  let called := { s with cipher := recordCall b s.cipher }
  if callFails s.cipher 0 then .raised .ePrim called else next (encryptBlock s.cipher b) called

end Sys2Proof.Machine
end

