-- ==== Sys2Proof/Machine/Operands.lean ====
section
/-! DEFINITION. The operand forms: buffers in MEM as ranges and chunks (spec/20_memory.md R63, R66), and the tag-length
immediate (spec/30_encoding.md R93). -/

namespace Sys2Proof.Machine

/-- Range validity: `n = 0`, or `a + n <= MEMSIZE` on natural numbers (R63). -/
abbrev ValidRange (memSize : Nat) (a n : Word) : Prop := n = 0 ∨ a.toNat + n.toNat ≤ memSize

/-- `if not valid(a, n): raise E_RANGE` (R216). -/
def requireRange (a n : Word) (s : State) : Progress :=
  if ValidRange s.memSize a n then .running s else .raised .eRange s

/-- `chunk(a, n, i) = MemRead(chunk_addr(a, i), chunk_len(n, i))` (R66). -/
def chunk (s : State) (a n i : Nat) : List Byte := memRead s (chunkAddr a i) (chunkLen n i)

/-- The bytes of the buffer `(a, n)`: `MemRead(a, n)`. -/
def buffer (s : State) (a n : Word) : List Byte := memRead s a.toNat n.toNat

/-- The legal tag lengths in bytes (R7, R93). -/
abbrev LegalTagLength (t : Nat) : Prop := t ∈ [16, 15, 14, 13, 12, 8, 4]

end Sys2Proof.Machine
end

