-- ==== Sys2Proof/Machine/Ghash.lean ====
section
/-! DEFINITION. The GHASH unit's commands GHINIT, GHBLK, GHASH (spec/40_ghash.md). -/

namespace Sys2Proof.Machine

/-- `absorb(B): x[Y] <- gfmul(x[Y] ^ B, x[H])` (R112). -/
def absorb (b : Block) (s : State) : State := { s with y := gfmul (s.y ^^^ b) s.h }

/-- The chunks `i` to `i + k - 1` of `absorb_buffer(a, n)` (R115). -/
def absorbChunks (a n : Nat) : (i k : Nat) → State → State
  | _, 0, s => s
  | i, k + 1, s => absorbChunks a n (i + 1) k (absorb (padblk (chunk s a n i)) s)

/-- `absorb_buffer(a, n)`: absorbs the zero-padded buffer; does not clear Y (R115). -/
def absorbBuffer (a n : Word) (s : State) : State := absorbChunks a.toNat n.toNat 0 (nchunks n.toNat) s

/-- GHINIT: `x[Y] <- 0` (R113). -/
def ghinitSteps (s : State) : Progress := .running { s with y := 0 }

/-- GHINIT, R113. -/
def execGhinit (s : State) : Host.Outcome State Fault Refusal := .next (ghinitSteps s).finish

/-- GHBLK: `absorb(x[DIN])` (R114). -/
def ghblkSteps (s : State) : Progress := .running (absorb s.din s)

/-- GHBLK, R114. -/
def execGhblk (s : State) : Host.Outcome State Fault Refusal := .next (ghblkSteps s).finish

/-- GHASH: the length check first, then the range, then the hash from Y = 0 (R116). -/
def ghashSteps (s : State) : Progress :=
  if s.len.toNat % 16 ≠ 0 then .raised .eAlign s
  else (requireRange s.srcaddr s.len s).andThen fun s =>
    .running (absorbBuffer s.srcaddr s.len { s with y := 0 })

/-- GHASH, R116. -/
def execGhash (s : State) : Host.Outcome State Fault Refusal := .next (ghashSteps s).finish

end Sys2Proof.Machine
end

