-- ==== Sys2Proof/Machine/Primitives.lean ====
section
/-! DEFINITION. The GCM primitives HDERIVE, J0DERIVE, INC32, GCTR and their micro-procedures (spec/41_gcm_primitives.md). -/

namespace Sys2Proof.Machine

/-- `derive_h(): x[H] <- Cipher(0^128)` (R140). -/
def deriveH (s : State) : Progress := withCipher 0 s fun ks s => .running { s with h := ks }

/-- HDERIVE, R140. -/
def execHderive (s : State) : Host.Outcome State Fault Refusal := .next (deriveH s).finish

/-- `derive_j0(a, n)` (R148). -/
def deriveJ0 (a n : Word) (s : State) : State :=
  if n = 12 then { s with j0 := blk (memRead s a.toNat 12 ++ [0x00, 0x00, 0x00, 0x01]) }
  else
    let hashed := absorb (blk (zeros 8 ++ u64be (8 * n.toNat))) (absorbBuffer a n { s with y := 0 })
    { hashed with j0 := hashed.y }

/-- J0DERIVE: the range check, then `derive_j0` (R144). -/
def j0deriveSteps (s : State) : Progress :=
  (requireRange s.ivaddr s.ivlen s).andThen fun s => .running (deriveJ0 s.ivaddr s.ivlen s)

/-- J0DERIVE, R144. -/
def execJ0derive (s : State) : Host.Outcome State Fault Refusal := .next (j0deriveSteps s).finish

/-- `x[CB] <- inc32(x[CB])`. -/
def incCb (s : State) : State := { s with cb := inc32 s.cb }

/-- INC32, R142. -/
def execInc32 (s : State) : Host.Outcome State Fault Refusal := .next (Progress.running (incCb s)).finish

/-- Chunk i of `gctr_run(src, dst, n)`: read, Cipher call, write, increment (R147). -/
def gctrChunk (src dst n : Nat) (i : Nat) (s : State) : Progress :=
  let data := chunk s src n i
  withCipher s.cb s fun ks s =>
    .running (incCb (memWrite (chunkAddr dst i) (xorBytes data (left data.length ks)) s))

/-- `gctr_run(src, dst, n)` (R147). -/
def gctrRun (src dst n : Word) (s : State) : Progress :=
  forChunks (gctrChunk src.toNat dst.toNat n.toNat) 0 (nchunks n.toNat) s

/-- GCTR: the source range, the destination range, the run (R146). -/
def gctrSteps (s : State) : Progress :=
  (requireRange s.srcaddr s.len s).andThen fun s =>
  (requireRange s.dstaddr s.len s).andThen fun s =>
  gctrRun s.srcaddr s.dstaddr s.len s

/-- GCTR, R146. -/
def execGctr (s : State) : Host.Outcome State Fault Refusal := .next (gctrSteps s).finish

end Sys2Proof.Machine
end

