-- ==== Sys2Proof/Machine/Engine.lean ====
section
/-! DEFINITION. The GCM engine: GCMCFG, GCMENC, GCMDEC (spec/42_gcm_aead.md). -/

namespace Sys2Proof.Machine

/-- `GCMCFG t`: TAGLEN is written only when `t` is legal (R171). -/
def gcmcfgSteps (t : Nat) (s : State) : Progress :=
  if LegalTagLength t then .running { s with taglen := BitVec.ofNat 5 t } else .raised .eTaglen s

/-- GCMCFG, R171. -/
def execGcmcfg (t : Nat) (s : State) : Host.Outcome State Fault Refusal := .next (gcmcfgSteps t s).finish

/-- `check_buffers()`: IV, AAD, source, destination, in this order (R173). -/
def checkBuffers (s : State) : Progress :=
  (requireRange s.ivaddr s.ivlen s).andThen fun s =>
  (requireRange s.aadaddr s.aadlen s).andThen fun s =>
  (requireRange s.srcaddr s.len s).andThen fun s =>
  requireRange s.dstaddr s.len s

/-- What GCMENC and GCMDEC begin with once the ranges are checked: TAG cleared, the subkey, the pre-counter block, Y cleared,
the AAD absorbed (R174, R180). -/
def beginMessage (s : State) : Progress :=
  (deriveH { s with tag := 0 }).andThen fun s =>
  let keyed := deriveJ0 s.ivaddr s.ivlen s
  .running (absorbBuffer keyed.aadaddr keyed.aadlen { keyed with y := 0 })

/-- `absorb(lenblock(x[AADLEN], x[LEN]))` (R174, R180). -/
def absorbLengths (s : State) : State := absorb (lenblock s.aadlen.toNat s.len.toNat) s

/-- The tag step: `x[CB] <- x[J0]; ks <- Cipher(x[CB]); full <- x[Y] ^ ks; x[CB] <- inc32(x[CB])`, then the micro-steps that use
`full` (R174, R180). -/
def withFullTag (s : State) (next : Block → State → Progress) : Progress :=
  let atJ0 := { s with cb := s.j0 }
  withCipher atJ0.cb atJ0 fun ks s => next (s.y ^^^ ks) (incCb s)

/-- Chunk i of GCMENC's loop: as in `gctr_run`, and the output chunk is absorbed from the value just written (R174). -/
def gcmencChunk (i : Nat) (s : State) : Progress :=
  let data := chunk s s.srcaddr.toNat s.len.toNat i
  withCipher s.cb s fun ks s =>
    let o := xorBytes data (left data.length ks)
    .running (absorb (padblk o) (incCb (memWrite (chunkAddr s.dstaddr.toNat i) o s)))

/-- GCMENC (R174). -/
def gcmencSteps (s : State) : Progress :=
  (checkBuffers s).andThen fun s =>
  (beginMessage s).andThen fun s =>
  (forChunks gcmencChunk 0 (nchunks s.len.toNat) { s with cb := inc32 s.j0 }).andThen fun s =>
  withFullTag (absorbLengths s) fun full s =>
  .running { s with tag := tagOf full s.taglen.toNat }

/-- GCMENC, R174. -/
def execGcmenc (s : State) : Host.Outcome State Fault Refusal := .next (gcmencSteps s).finish

/-- GCMDEC's comparison: E_AUTH unless the leftmost TAGLEN bytes of `full` and of TAGIN are equal (R180, R182). -/
def requireTag (full : Block) (s : State) : Progress :=
  if tagPrefix full s.taglen.toNat ≠ tagPrefix s.tagin s.taglen.toNat then .raised .eAuth s else .running s

/-- GCMDEC (R180). -/
def gcmdecSteps (s : State) : Progress :=
  (checkBuffers s).andThen fun s =>
  (beginMessage s).andThen fun s =>
  withFullTag (absorbLengths (absorbBuffer s.srcaddr s.len s)) fun full s =>
  (requireTag full s).andThen fun s =>
  gctrRun s.srcaddr s.dstaddr s.len { s with cb := inc32 s.j0 }

/-- GCMDEC, R180. -/
def execGcmdec (s : State) : Host.Outcome State Fault Refusal := .next (gcmdecSteps s).finish

end Sys2Proof.Machine
end

