-- ==== Sys2Proof/Machine/System.lean ====
section
/-! DEFINITION. The system commands NOP and SRESET (spec/43_system.md). -/

namespace Sys2Proof.Machine

/-- NOP: only `done_ok` (R200). -/
def execNop (s : State) : Host.Outcome State Fault Refusal := .next (Progress.running s).finish

/-- Every register at its reset value; MEM, the external cipher and the parameters unchanged (R201). -/
def resetRegisters (s : State) : State :=
  { s with
    h := 0, y := 0, din := 0, j0 := 0, cb := 0, tag := 0, tagin := 0
    ivaddr := 0, ivlen := 0, aadaddr := 0, aadlen := 0, srcaddr := 0, dstaddr := 0, len := 0
    taglen := 16
    status := statusClear }

/-- SRESET, R201: the one command that ends neither by `done_ok` nor by `raise`. -/
def execSreset (s : State) : Host.Outcome State Fault Refusal := .next (resetRegisters s)

end Sys2Proof.Machine
end

