-- ==== Sys2Proof/Machine/Dispatch.lean ====
section
/-! DEFINITION. One arm per command (spec/30_encoding.md R92). -/

namespace Sys2Proof.Machine

def exec (i : Instr) (s : State) : Host.Outcome State Fault Refusal :=
  match i with
  | .nop => Sys2Proof.Machine.execNop s
  | .ghinit => Sys2Proof.Machine.execGhinit s
  | .ghblk => Sys2Proof.Machine.execGhblk s
  | .ghash => Sys2Proof.Machine.execGhash s
  | .hderive => Sys2Proof.Machine.execHderive s
  | .j0derive => Sys2Proof.Machine.execJ0derive s
  | .inc32 => Sys2Proof.Machine.execInc32 s
  | .gctr => Sys2Proof.Machine.execGctr s
  | .gcmcfg t => Sys2Proof.Machine.execGcmcfg t s
  | .gcmenc => Sys2Proof.Machine.execGcmenc s
  | .gcmdec => Sys2Proof.Machine.execGcmdec s
  | .sreset => Sys2Proof.Machine.execSreset s

end Sys2Proof.Machine
end

