-- ==== Sys2Proof/Machine/HostPort.lean ====
section
/-! DEFINITION. The host's accesses: the register map and port (spec/10_state.md R23, R25 to R29), the memory port
(spec/20_memory.md R62), the command write (R27; spec/30_encoding.md R91), and the key of the external cipher (R34(b)). -/

namespace Sys2Proof.Machine

/-- What a word of the register space is (R28). -/
inductive RegWord where
  | cmd
  | status
  | cfg
  | reserved
  | desc (r : DescReg)
  | data (r : DataReg) (k : Nat)
deriving DecidableEq, Repr

/-- The register map by word number (byte offset / 4) for the words 0x00 to 0x2C (R28). -/
def lowRegWord : Nat → RegWord
  | 0 => .cmd
  | 1 => .status
  | 2 => .cfg
  | 4 => .desc .ivaddr
  | 5 => .desc .ivlen
  | 6 => .desc .aadaddr
  | 7 => .desc .aadlen
  | 8 => .desc .srcaddr
  | 9 => .desc .dstaddr
  | 10 => .desc .len
  | _ => .reserved

/-- The data register at byte offset `16 * n` (R28). -/
def dataRegAt : Nat → Option DataReg
  | 3 => some .h
  | 4 => some .y
  | 5 => some .din
  | 6 => some .j0
  | 7 => some .cb
  | 8 => some .tag
  | 9 => some .tagin
  | _ => none

/-- The register map (R28). -/
def regAt (off : Nat) : RegWord :=
  match dataRegAt (off / 16) with
  | some r => .data r (off / 4 % 4)
  | none => lowRegWord (off / 4)

/-- "aligned 32-bit reads and writes at an offset that is a multiple of 4 in 0x00 to 0xFC" (R29(a)). -/
abbrev RegTransaction (off bytes : Nat) : Prop := bytes = 4 ∧ off % 4 = 0 ∧ off < 0x100

/-- The word a register read returns; CMD and the reserved offsets read 0 (R23, R25 to R29). -/
def regValue (s : State) : RegWord → Word
  | .cmd => 0
  | .status => statusWord s.status
  | .cfg => cfgWord s.taglen
  | .reserved => 0
  | .desc r => getDesc s r
  | .data r k => blockWord (getData s r) k

/-- A write of CMD: the command the word encodes, executed to its end, or E_CMD (R27, R91, R217). -/
def command (w : Word) (s : State) : Host.Outcome State Fault Refusal :=
  match decodeWord w with
  | .instr i => exec i s
  | .rejected _ => .next (raise .eCmd s)

/-- A register write: RW words are replaced; RO and reserved words ignore it; CMD starts a command (R29). -/
def regWriteWord (v : Word) (s : State) : RegWord → Host.Outcome State Fault Refusal
  | .cmd => command v s
  | .status => .next s
  | .cfg => .next s
  | .reserved => .next s
  | .desc r => .next (setDesc r v s)
  | .data .tag _ => .next s
  | .data r k => .next (setData r (setBlockWord (getData s r) k v) s)

/-- "with n >= 1 ... They are defined when the range is valid" (R62), on natural numbers (R63). DESIGN CHOICE: the spec gives the
host's byte count no width, and R63's ranges have a 32-bit one. The count here is bounded by MEMSIZE only, so with MEMSIZE = 2^32 an
access of 2^32 bytes at address 0 is taken. Log 17. -/
abbrev MemTransaction (memSize addr n : Nat) : Prop := 1 ≤ n ∧ addr + n ≤ memSize

/-- What the host gets back. -/
def answer (r : HostReply) (s : State) : State := { s with reply := r }

/-- One host access (R233). -/
def hostAccess (a : HostAccess) (s : State) : Host.Outcome State Fault Refusal :=
  match a with
  | .regRead off bytes =>
    if RegTransaction off bytes then .next (answer (.word (regValue s (regAt off))) s)
    else .refused .notARegisterTransaction
  | .regWrite off bytes v =>
    if RegTransaction off bytes then regWriteWord v (answer .nothing s) (regAt off)
    else .refused .notARegisterTransaction
  | .memRead addr n =>
    if MemTransaction s.memSize addr n then .next (answer (.bytes (memRead s addr n)) s)
    else .refused .notAMemoryTransaction
  | .memWrite addr data =>
    if MemTransaction s.memSize addr data.length then .next (memWrite addr data (answer .nothing s))
    else .refused .notAMemoryTransaction
  | .loadKey k => .next (answer .nothing { s with cipher := { s.cipher with key := k } })

/-- The write of one command word to CMD. -/
def commandWrite (w : Word) : HostAccess := .regWrite 0x00 4 w

end Sys2Proof.Machine
end

