-- ==== Sys2Proof/Machine/Step.lean ====
section
/-! DEFINITION. One step of the model is one host access (spec/00_scope.md R13). -/

namespace Sys2Proof.Machine

/-- Takes the host's next access; with none the block is idle and "keeps all state" (R231, R240). Log 1, log 2. -/
def step (s : State) : Host.Outcome State Fault Refusal :=
  match s.host with
  | [] => .next s
  | a :: rest => hostAccess a { s with host := rest }

/-- `s` with the command word `w` as the host's next access: a write of it to CMD. The accesses already waiting stay after it.
Log 1. -/
def State.withFetchWord (s : State) (nbits w : Nat) : State :=
  { s with host := commandWrite (tableWord nbits w) :: s.host }

end Sys2Proof.Machine
end

