-- ==== Sys2Proof/Safety.lean ====
section
/-! DEFINITION. The terms claims are stated in: the invariant of the state, the conditions on the operands, and what a run of
calls leaves at the cipher port. -/

namespace Sys2Proof.Machine

/-- STATUS as R25 allows it: OK and ERR never both 1; ERRCODE 0 when ERR = 0, else the code of an error (R213). -/
abbrev Status.Legal (st : Status) : Prop :=
  ¬(st.ok = true ∧ st.err = true) ∧ (st.err = false → st.errcode = 0) ∧
    (st.err = true → 1 ≤ st.errcode.toNat ∧ st.errcode.toNat ≤ 6)

/-- The invariant of the state: TAGLEN legal "at all times" (R26), STATUS legal (R25), MEM in canonical form and inside MEMSIZE
(R32, R60), and MEMSIZE in its range (R8). -/
abbrev State.Inv (s : State) : Prop :=
  LegalTagLength s.taglen.toNat ∧ s.status.Legal ∧ Memory.wf s.mem ∧ (∀ c ∈ s.mem, c.1 < s.memSize) ∧
    1 ≤ s.memSize ∧ s.memSize ≤ 2 ^ 32

/-- The four ranges of `check_buffers` are valid (R173). -/
abbrev BuffersValid (s : State) : Prop :=
  ValidRange s.memSize s.ivaddr s.ivlen ∧ ValidRange s.memSize s.aadaddr s.aadlen ∧
    ValidRange s.memSize s.srcaddr s.len ∧ ValidRange s.memSize s.dstaddr s.len

/-- The ranges `(a, n)` and `(b, n)` are identical or disjoint (R250). -/
abbrev SameOrDisjoint (a b n : Word) : Prop := a = b ∨ a.toNat + n.toNat ≤ b.toNat ∨ b.toNat + n.toNat ≤ a.toNat

/-- The address lies in the range `(base, n)`. -/
abbrev InRange (a : Nat) (base n : Word) : Prop := base.toNat ≤ a ∧ a < base.toNat + n.toNat

/-- None of the next `n` Cipher calls answers `fail` (R218). -/
abbrev CipherAnswers (s : State) (n : Nat) : Prop := ∀ k < n, callFails s.cipher k = false

/-- The cipher port after the calls `bs`: recorded in order, their draws used up. -/
def afterCalls (c : CipherPort) (bs : List Block) : CipherPort :=
  { c with fails := c.fails.drop bs.length, calls := c.calls ++ bs }

/-- The counter blocks of `n` chunks: `cb`, `inc32(cb)`, and so on (R145). -/
def counterBlocks (cb : Block) (n : Nat) : List Block := (List.range n).map fun i => inc32^[i] cb

/-- What one chunk of `gctr_run` does when its Cipher call answers, written from R147: the chunk read at the source, its
exclusive or with the leftmost keystream bytes written at the destination, CB incremented. -/
def gctrChunkEffect (s : State) (i : Nat) : State :=
  let data := memRead s (s.srcaddr.toNat + 16 * i) (min 16 (s.len.toNat - 16 * i))
  let out := List.zipWith (· ^^^ ·) data ((bytes16 (encryptBlock s.cipher s.cb)).take data.length)
  { s with
    mem := Memory.setBytes s.mem (s.dstaddr.toNat + 16 * i) out
    cb := inc32 s.cb
    cipher := afterCalls s.cipher [s.cb] }

/-- The first `k` chunks of `gctr_run`. -/
def gctrChunksEffect (s : State) (k : Nat) : State := (List.range k).foldl gctrChunkEffect s

/-- What one chunk of GCMENC's loop does when its Cipher call answers, written from R174: the chunk of `gctr_run`, and the padded
bytes just written absorbed into Y. The chunk is read from the MEM that the chunks before it have left (R250). -/
def gcmencChunkEffect (s : State) (i : Nat) : State :=
  let n := min 16 (s.len.toNat - 16 * i)
  let t := gctrChunkEffect s i
  { t with y := gfmul (s.y ^^^ blk (memRead t (s.dstaddr.toNat + 16 * i) n ++ zeros (16 - n))) s.h }

/-- The first `k` chunks of GCMENC's loop. -/
def gcmencChunksEffect (s : State) (k : Nat) : State := (List.range k).foldl gcmencChunkEffect s

/-- The state in which GCMENC's chunk loop starts (R174): TAG cleared, H, J0 and CB derived, the AAD absorbed, one call made. -/
def gcmencLoopStart (s : State) : State :=
  let h := encryptBlock s.cipher 0
  let j0 := j0Of h (memRead s s.ivaddr.toNat s.ivlen.toNat)
  { s with
    tag := 0, h := h, j0 := j0, cb := inc32 j0, cipher := afterCalls s.cipher [0]
    y := ghashFrom h 0 (pad128 (memRead s s.aadaddr.toNat s.aadlen.toNat)) }

end Sys2Proof.Machine
end

