-- ==== Sys2Proof/Certificates/Slice0/Obligations.lean ====
section
/-! DEFINITION. The statements for the provers. -/

open Sys2Proof Sys2Proof.Machine

/-! ### Reset, the invariant, one step -/

/-- The reset table (R36): every register, MEM at its draws, the key open, no command running by itself, and SRESET setting the
registers of the table to the same values with MEM unchanged. (That MEM and the key are OPEN is R36's; that they are written as
open constants is the model's form, log 3 and log 5.) -/
def Obligations.ResetStateIsTheSpecsTable : Prop :=
  let r := State.reset
  (r.h = 0 ∧ r.y = 0 ∧ r.din = 0 ∧ r.j0 = 0 ∧ r.cb = 0 ∧ r.tag = 0 ∧ r.tagin = 0) ∧
  (r.ivaddr = 0 ∧ r.ivlen = 0 ∧ r.aadaddr = 0 ∧ r.aadlen = 0 ∧ r.srcaddr = 0 ∧ r.dstaddr = 0 ∧ r.len = 0) ∧
  r.taglen = 16 ∧ r.status = { ok := false, err := false, errcode := 0 } ∧
  (∀ a, readByte r a = Config.powerOnByte a) ∧
  r.cipher.key = Config.resetKey ∧
  step r = .next r ∧
  ∀ s : State, exec .sreset s = .next { r with
    mem := s.mem, memSize := s.memSize, cipher := s.cipher, host := s.host, reply := s.reply }

/-- The invariant holds right after reset. -/
def Obligations.ResetMeetsTheInvariant : Prop := State.reset.Inv

/-- From EVERY state that meets the invariant, a step gives a state that meets it: TAGLEN stays legal (R26), STATUS legal (R25),
MEM canonical and inside MEMSIZE (R32), MEMSIZE in its range (R8). -/
def Obligations.EveryStepKeepsTheInvariant : Prop :=
  ∀ s t : State, s.Inv → step s = .next t → t.Inv

/-- A write of a word that decodes to `i`, at the head of the host's accesses, makes the step run `i` (R27), on the state without
that access and with nothing handed back (R233). -/
def Obligations.StepRunsTheDecodedCommand : Prop :=
  ∀ (s : State) (w : Word) (rest : List HostAccess) (i : Instr),
    s.host = .regWrite 0x00 4 w :: rest → decodeWord w = .instr i →
    step s = exec i { s with host := rest, reply := .nothing }

/-- With no host access to come the block keeps all state (R231, R240). -/
def Obligations.IdleKeepsAllState : Prop :=
  ∀ s : State, s.host = [] → step s = .next s

/-- Decoding, R91 whole: the three tests, and what a write of the word to CMD then does. -/
def Obligations.CommandWriteDecodesOrRaisesECmd : Prop :=
  ∀ (s : State) (w : Word) (rest : List HostAccess), s.host = .regWrite 0x00 4 w :: rest →
    let illegal : Prop := w.extractLsb' 16 16 ≠ 0 ∨
      w.extractLsb' 0 8 ∉ [0x00#8, 0x01#8, 0x02#8, 0x03#8, 0x10#8, 0x11#8, 0x12#8, 0x13#8, 0x20#8, 0x21#8, 0x22#8, 0x3F#8] ∨
      (w.extractLsb' 0 8 ≠ 0x20#8 ∧ w.extractLsb' 8 8 ≠ 0)
    (illegal → step s = .next { s with
      host := rest, reply := .nothing, status := { ok := false, err := true, errcode := 4 } }) ∧
    (¬illegal → ∃ i, decodeWord w = .instr i ∧ opcodeOf i = w.extractLsb' 0 8 ∧ argOf i = w.extractLsb' 8 8 ∧
      step s = exec i { s with host := rest, reply := .nothing })

/-- Every command completes: none ends in a refusal, and the step that holds it ends (R210; SRESET, which R210 excepts, by R201). Two
of the model's deductions stand behind it: that none ends in a fault holds by types, `Fault` being empty (log 14), and that the
command ends at all rests on a cipher that always answers (log 11, D13). -/
def Obligations.EveryCommandAnswersANextState : Prop :=
  ∀ (i : Instr) (s : State), ∃ t, exec i s = .next t

/-! ### Encoding -/

/-- The `match` and `mask` of each row of R92, with GCMCFG's ARG. -/
def Obligations.WordSelectsItsRowByMatchAndMask : Prop :=
  ∀ (w : Word) (i : Instr), decodeWord w = .instr i ↔
    match i with
    | .nop => w &&& 0xFFFFFFFF = 0x00000000
    | .ghinit => w &&& 0xFFFFFFFF = 0x00000001
    | .ghblk => w &&& 0xFFFFFFFF = 0x00000002
    | .ghash => w &&& 0xFFFFFFFF = 0x00000003
    | .hderive => w &&& 0xFFFFFFFF = 0x00000010
    | .j0derive => w &&& 0xFFFFFFFF = 0x00000011
    | .inc32 => w &&& 0xFFFFFFFF = 0x00000012
    | .gctr => w &&& 0xFFFFFFFF = 0x00000013
    | .gcmcfg t => w &&& 0xFFFF00FF = 0x00000020 ∧ t = (w.toNat / 256) % 256
    | .gcmenc => w &&& 0xFFFFFFFF = 0x00000021
    | .gcmdec => w &&& 0xFFFFFFFF = 0x00000022
    | .sreset => w &&& 0xFFFFFFFF = 0x0000003F

/-- Decode of encode, for every well-formed instruction, GCMCFG at each of its 256 arguments. -/
def Obligations.DecodeOfEncodeIsTheInstruction : Prop :=
  ∀ i : Instr, i.WellFormed → decodeWord (encode i) = .instr i

/-- Encode of decode: each word has one meaning, and a decoded instruction is well-formed. -/
def Obligations.EncodeOfDecodeIsTheWord : Prop :=
  ∀ (w : Word) (i : Instr), decodeWord w = .instr i → i.WellFormed ∧ encode i = w

/-- Words written out from R92 and R93, one or more of each family; and illegal words of R94. -/
def Obligations.WrittenOutWordsDecode : Prop :=
  decodeWord 0x00000000 = .instr .nop ∧ decodeWord 0x00000003 = .instr .ghash ∧
  decodeWord 0x00000011 = .instr .j0derive ∧ decodeWord 0x00000013 = .instr .gctr ∧
  decodeWord 0x00000C20 = .instr (.gcmcfg 12) ∧ decodeWord 0x0000FF20 = .instr (.gcmcfg 255) ∧
  decodeWord 0x00000022 = .instr .gcmdec ∧ decodeWord 0x0000003F = .instr .sreset ∧
  decodeWord 0x00000004 = .rejected .opcodeUnassigned ∧ decodeWord 0x00000101 = .rejected .argNotZero ∧
  decodeWord 0x00010C20 = .rejected .zeroFieldNotZero

/-! ### The host's ports -/

/-- The layout of the STATUS word (R25) and of the CFG word (R26). -/
def Obligations.StatusAndCfgWordsHaveTheirFields : Prop :=
  (∀ st : Status,
    (statusWord st).getLsbD 0 = st.ok ∧ (statusWord st).getLsbD 1 = st.err ∧ (statusWord st).extractLsb' 2 2 = 0 ∧
    (statusWord st).extractLsb' 4 4 = st.errcode ∧ (statusWord st).extractLsb' 8 24 = 0) ∧
  ∀ t : BitVec 5, (cfgWord t).extractLsb' 0 5 = t ∧ (cfgWord t).extractLsb' 5 27 = 0

/-- A register read returns the word the map of R28 puts at the offset, and has no side effect (R29(b), (d), (e)). -/
def Obligations.RegisterReadReturnsTheMappedWord : Prop :=
  ∀ (s : State) (off : Nat) (rest : List HostAccess),
    s.host = .regRead off 4 :: rest → off % 4 = 0 → off ≤ 0xFC →
    ∃ v : Word, step s = .next { s with host := rest, reply := .word v } ∧
      (off = 0x00 → v = 0) ∧ (off = 0x04 → v = statusWord s.status) ∧ (off = 0x08 → v = cfgWord s.taglen) ∧
      (off = 0x0C ∨ off = 0x2C ∨ 0xA0 ≤ off → v = 0) ∧
      (off = 0x10 → v = s.ivaddr) ∧ (off = 0x14 → v = s.ivlen) ∧ (off = 0x18 → v = s.aadaddr) ∧
      (off = 0x1C → v = s.aadlen) ∧ (off = 0x20 → v = s.srcaddr) ∧ (off = 0x24 → v = s.dstaddr) ∧
      (off = 0x28 → v = s.len) ∧
      ∀ k < 4,
        (off = 0x30 + 4 * k → v = s.h.extractLsb' (96 - 32 * k) 32) ∧
        (off = 0x40 + 4 * k → v = s.y.extractLsb' (96 - 32 * k) 32) ∧
        (off = 0x50 + 4 * k → v = s.din.extractLsb' (96 - 32 * k) 32) ∧
        (off = 0x60 + 4 * k → v = s.j0.extractLsb' (96 - 32 * k) 32) ∧
        (off = 0x70 + 4 * k → v = s.cb.extractLsb' (96 - 32 * k) 32) ∧
        (off = 0x80 + 4 * k → v = s.tag.extractLsb' (96 - 32 * k) 32) ∧
        (off = 0x90 + 4 * k → v = s.tagin.extractLsb' (96 - 32 * k) 32)

/-- A write of a descriptor register replaces it and has no other effect (R29(f)). -/
def Obligations.DescriptorWriteReplacesTheRegister : Prop :=
  ∀ (s : State) (off : Nat) (v : Word) (rest : List HostAccess), s.host = .regWrite off 4 v :: rest →
    let u : State := { s with host := rest, reply := .nothing }
    (off = 0x10 → step s = .next { u with ivaddr := v }) ∧ (off = 0x14 → step s = .next { u with ivlen := v }) ∧
    (off = 0x18 → step s = .next { u with aadaddr := v }) ∧ (off = 0x1C → step s = .next { u with aadlen := v }) ∧
    (off = 0x20 → step s = .next { u with srcaddr := v }) ∧ (off = 0x24 → step s = .next { u with dstaddr := v }) ∧
    (off = 0x28 → step s = .next { u with len := v })

/-- A write of word k of a read-write data register "replaces those 32 bits and leaves the other 96" (R23), and has no other
effect (R29(f)). -/
def Obligations.DataWordWriteReplacesThatWordOnly : Prop :=
  ∀ (s : State) (k : Nat) (v : Word) (rest : List HostAccess), k < 4 →
    let u : State := { s with host := rest, reply := .nothing }
    let replaced (old new : Block) : Prop := new.extractLsb' (96 - 32 * k) 32 = v ∧
      ∀ j < 4, j ≠ k → new.extractLsb' (96 - 32 * j) 32 = old.extractLsb' (96 - 32 * j) 32
    (s.host = .regWrite (0x30 + 4 * k) 4 v :: rest → ∃ b, replaced s.h b ∧ step s = .next { u with h := b }) ∧
    (s.host = .regWrite (0x40 + 4 * k) 4 v :: rest → ∃ b, replaced s.y b ∧ step s = .next { u with y := b }) ∧
    (s.host = .regWrite (0x50 + 4 * k) 4 v :: rest → ∃ b, replaced s.din b ∧ step s = .next { u with din := b }) ∧
    (s.host = .regWrite (0x60 + 4 * k) 4 v :: rest → ∃ b, replaced s.j0 b ∧ step s = .next { u with j0 := b }) ∧
    (s.host = .regWrite (0x70 + 4 * k) 4 v :: rest → ∃ b, replaced s.cb b ∧ step s = .next { u with cb := b }) ∧
    (s.host = .regWrite (0x90 + 4 * k) 4 v :: rest → ∃ b, replaced s.tagin b ∧ step s = .next { u with tagin := b })

/-- Writes of the read-only registers (STATUS, CFG, the TAG words) and of the reserved offsets are ignored (R29(b), (c)). -/
def Obligations.ReadOnlyAndReservedWritesAreIgnored : Prop :=
  ∀ (s : State) (off : Nat) (v : Word) (rest : List HostAccess), s.host = .regWrite off 4 v :: rest →
    off % 4 = 0 → off ≤ 0xFC →
    (off = 0x04 ∨ off = 0x08 ∨ off = 0x0C ∨ off = 0x2C ∨ (0x80 ≤ off ∧ off ≤ 0x8C) ∨ 0xA0 ≤ off) →
    step s = .next { s with host := rest, reply := .nothing }

/-- Accesses that are no transaction of a port are refused (R29(a), R62). -/
def Obligations.NonTransactionsAreRefused : Prop :=
  ∀ (s : State) (rest : List HostAccess),
    (∀ off bytes, s.host = .regRead off bytes :: rest → bytes ≠ 4 ∨ off % 4 ≠ 0 ∨ 0xFC < off →
      step s = .refused .notARegisterTransaction) ∧
    (∀ off bytes v, s.host = .regWrite off bytes v :: rest → bytes ≠ 4 ∨ off % 4 ≠ 0 ∨ 0xFC < off →
      step s = .refused .notARegisterTransaction) ∧
    (∀ addr n, s.host = .memRead addr n :: rest → n = 0 ∨ s.memSize < addr + n →
      step s = .refused .notAMemoryTransaction) ∧
    (∀ addr data, s.host = .memWrite addr data :: rest → data = [] ∨ s.memSize < addr + data.length →
      step s = .refused .notAMemoryTransaction)

/-- A memory read returns the bytes, lowest address first, and changes nothing (R60, R62). The count is bounded by MEMSIZE only (the
model's choice, log 17). -/
def Obligations.MemoryPortReadReturnsTheBytes : Prop :=
  ∀ (s : State) (addr n : Nat) (rest : List HostAccess), s.host = .memRead addr n :: rest →
    1 ≤ n → addr + n ≤ s.memSize →
    ∃ bytes : List Byte, step s = .next { s with host := rest, reply := .bytes bytes } ∧ bytes.length = n ∧
      ∀ i < n, bytes[i]? = some (readByte s (addr + i))

/-- After a memory write each written address reads as written, every other address as before, and nothing else has changed
(R60, R62). The count is bounded by MEMSIZE only (the model's choice, log 17). -/
def Obligations.MemoryPortWriteStoresTheBytes : Prop :=
  ∀ (s : State) (addr : Nat) (data : List Byte) (rest : List HostAccess), s.host = .memWrite addr data :: rest →
    data ≠ [] → addr + data.length ≤ s.memSize →
    ∃ t : State, step s = .next t ∧ t = { s with host := rest, reply := .nothing, mem := t.mem } ∧
      (∀ i, i < data.length → some (readByte t (addr + i)) = data[i]?) ∧
      ∀ a, a < addr ∨ addr + data.length ≤ a → readByte t a = readByte s a

/-- The surrounding logic's change of the key touches no GGU state: only what later Cipher calls answer (R34(b)). -/
def Obligations.LoadKeyChangesOnlyTheExternalKey : Prop :=
  ∀ (s : State) (k : Key) (rest : List HostAccess), s.host = .loadKey k :: rest →
    step s = .next { s with host := rest, reply := .nothing, cipher := { s.cipher with key := k } }

/-! ### The commands -/

/-- R200. -/
def Obligations.NopWritesStatusOnly : Prop :=
  decodeWord 0x00000000 = .instr .nop ∧
  ∀ s : State, exec .nop s = .next { s with status := { ok := true, err := false, errcode := 0 } }

/-- R201. -/
def Obligations.SresetResetsEveryRegisterAndKeepsMem : Prop :=
  decodeWord 0x0000003F = .instr .sreset ∧
  ∀ s : State, exec .sreset s = .next { s with
    h := 0, y := 0, din := 0, j0 := 0, cb := 0, tag := 0, tagin := 0
    ivaddr := 0, ivlen := 0, aadaddr := 0, aadlen := 0, srcaddr := 0, dstaddr := 0, len := 0
    taglen := 16
    status := { ok := false, err := false, errcode := 0 } }

/-- R113. -/
def Obligations.GhinitClearsTheAccumulator : Prop :=
  decodeWord 0x00000001 = .instr .ghinit ∧
  ∀ s : State, exec .ghinit s = .next { s with y := 0, status := { ok := true, err := false, errcode := 0 } }

/-- R114. -/
def Obligations.GhblkAbsorbsDin : Prop :=
  decodeWord 0x00000002 = .instr .ghblk ∧
  ∀ s : State, exec .ghblk s = .next { s with
    y := gfmul (s.y ^^^ s.din) s.h, status := { ok := true, err := false, errcode := 0 } }

/-- The pseudo-instruction `gfmul` (R119). -/
def Obligations.GhinitThenGhblkMultipliesDinByH : Prop :=
  ∀ s : State, ∃ t, exec .ghinit s = .next t ∧ exec .ghblk t = .next { s with
    y := gfmul s.din s.h, status := { ok := true, err := false, errcode := 0 } }

/-- R116: the length check first, then the range, then the hash of the buffer from Y = 0. -/
def Obligations.GhashHashesTheSourceBuffer : Prop :=
  decodeWord 0x00000003 = .instr .ghash ∧
  ∀ s : State,
    (s.len.toNat % 16 ≠ 0 → exec .ghash s = .next { s with status := { ok := false, err := true, errcode := 2 } }) ∧
    (s.len.toNat % 16 = 0 → ¬ValidRange s.memSize s.srcaddr s.len →
      exec .ghash s = .next { s with status := { ok := false, err := true, errcode := 3 } }) ∧
    (s.len.toNat % 16 = 0 → ValidRange s.memSize s.srcaddr s.len →
      exec .ghash s = .next { s with
        y := ghashH s.h (memRead s s.srcaddr.toNat s.len.toNat), status := { ok := true, err := false, errcode := 0 } })

/-- R140: one Cipher call with the all-zero block; when it fails H keeps its value. -/
def Obligations.HderiveEncryptsTheZeroBlock : Prop :=
  decodeWord 0x00000010 = .instr .hderive ∧
  ∀ s : State,
    (callFails s.cipher 0 = false → exec .hderive s = .next { s with
      h := encryptBlock s.cipher 0, cipher := afterCalls s.cipher [0]
      status := { ok := true, err := false, errcode := 0 } }) ∧
    (callFails s.cipher 0 = true → exec .hderive s = .next { s with
      cipher := afterCalls s.cipher [0], status := { ok := false, err := true, errcode := 6 } })

/-- R144 (with R143, R148): E_RANGE, or J0 from the IV; Y is written, with the same value, only when IVLEN is not 12. -/
def Obligations.J0deriveDerivesThePreCounterBlock : Prop :=
  ∀ s : State,
    (¬ValidRange s.memSize s.ivaddr s.ivlen →
      exec .j0derive s = .next { s with status := { ok := false, err := true, errcode := 3 } }) ∧
    (ValidRange s.memSize s.ivaddr s.ivlen →
      let j0 := j0Of s.h (memRead s s.ivaddr.toNat s.ivlen.toNat)
      exec .j0derive s = .next { s with
        j0 := j0, y := if s.ivlen = 12 then s.y else j0
        status := { ok := true, err := false, errcode := 0 } })

/-- R142. -/
def Obligations.Inc32IncrementsTheCounterBlock : Prop :=
  decodeWord 0x00000012 = .instr .inc32 ∧
  ∀ s : State, exec .inc32 s = .next { s with
    cb := s.cb.extractLsb' 32 96 ++ (s.cb.extractLsb' 0 32 + 1), status := { ok := true, err := false, errcode := 0 } }

/-- R146: E_RANGE before any work; else the counter-mode transform of the buffer, its frame, and its equality with `GCTR_fn` when
the ranges are identical or disjoint. -/
def Obligations.GctrTransformsTheBuffer : Prop :=
  ∀ s : State,
    (¬(ValidRange s.memSize s.srcaddr s.len ∧ ValidRange s.memSize s.dstaddr s.len) →
      exec .gctr s = .next { s with status := { ok := false, err := true, errcode := 3 } }) ∧
    (s.len = 0 → exec .gctr s = .next { s with status := { ok := true, err := false, errcode := 0 } }) ∧
    (ValidRange s.memSize s.srcaddr s.len → ValidRange s.memSize s.dstaddr s.len →
      CipherAnswers s (nchunks s.len.toNat) →
      ∃ t : State, exec .gctr s = .next t ∧
        t = { s with
          mem := t.mem, cb := inc32^[nchunks s.len.toNat] s.cb
          cipher := afterCalls s.cipher (counterBlocks s.cb (nchunks s.len.toNat))
          status := { ok := true, err := false, errcode := 0 } } ∧
        (∀ a, ¬InRange a s.dstaddr s.len → readByte t a = readByte s a) ∧
        (SameOrDisjoint s.srcaddr s.dstaddr s.len →
          (memRead t s.dstaddr.toNat s.len.toNat, t.cb) =
            gctrFn (encryptBlock s.cipher) s.cb (memRead s s.srcaddr.toNat s.len.toNat)))

/-- R147 for every placement of the buffers, partial overlap included: chunk after chunk read, Cipher call, write, increment; and
when the call of chunk k is the first to fail, the chunks before it stand, CB has been incremented k times, chunk k is not written. -/
def Obligations.GctrRunsChunkByChunkAndStopsAtAFailingCall : Prop :=
  ∀ (s : State) (k : Nat), ValidRange s.memSize s.srcaddr s.len → ValidRange s.memSize s.dstaddr s.len →
    CipherAnswers s k →
    (k = nchunks s.len.toNat → exec .gctr s = .next { gctrChunksEffect s k with
      status := { ok := true, err := false, errcode := 0 } }) ∧
    (k < nchunks s.len.toNat → callFails s.cipher k = true →
      exec .gctr s = .next { gctrChunksEffect s k with
        cipher := afterCalls (gctrChunksEffect s k).cipher [inc32^[k] s.cb]
        status := { ok := false, err := true, errcode := 6 } })

/-- R171: a legal tag length is stored; every other one raises E_TAGLEN and leaves TAGLEN as it was. -/
def Obligations.GcmcfgStoresALegalTagLength : Prop :=
  ∀ (s : State) (t : Nat), t < 256 →
    decodeWord (0x00000020 ||| (BitVec.ofNat 32 t <<< 8)) = .instr (.gcmcfg t) ∧
    (t ∈ [16, 15, 14, 13, 12, 8, 4] → ∃ u : State, exec (.gcmcfg t) s = .next u ∧ u.taglen.toNat = t ∧
      u = { s with taglen := u.taglen, status := { ok := true, err := false, errcode := 0 } }) ∧
    (t ∉ [16, 15, 14, 13, 12, 8, 4] →
      exec (.gcmcfg t) s = .next { s with status := { ok := false, err := true, errcode := 1 } })

/-- R173, R216: GCMENC and GCMDEC check their four ranges before any other work. -/
def Obligations.InvalidBufferRaisesERange : Prop :=
  ∀ s : State, ¬BuffersValid s → ∀ i ∈ [Instr.gcmenc, Instr.gcmdec],
    exec i s = .next { s with status := { ok := false, err := true, errcode := 3 } }

/-- R174, R175: the state after a GCMENC that ends `done_ok`. For every placement of the buffers, partial overlap included, MEM and Y
are those of R174's loop run chunk after chunk (chunk i read from what the chunks before it have left, the written chunk absorbed),
Y then absorbs the length block, and TAG is the truncated tag of that Y. When source and destination are identical or disjoint (R250)
these are the ciphertext, the tag and S of `GCM_encrypt`. -/
def Obligations.GcmencEncryptsAndTags : Prop :=
  ∀ s : State, BuffersValid s → CipherAnswers s (nchunks s.len.toNat + 2) →
    let E := encryptBlock s.cipher
    let iv := memRead s s.ivaddr.toNat s.ivlen.toNat
    let aad := memRead s s.aadaddr.toNat s.aadlen.toNat
    let p := memRead s s.srcaddr.toNat s.len.toNat
    let t := s.taglen.toNat
    let j0 := j0Of (E 0) iv
    ∃ u : State, exec .gcmenc s = .next u ∧
      u = { s with
        mem := u.mem, y := u.y, tag := u.tag, h := E 0, j0 := j0, cb := inc32 j0
        cipher := afterCalls s.cipher ([0] ++ counterBlocks (inc32 j0) (nchunks s.len.toNat) ++ [j0])
        status := { ok := true, err := false, errcode := 0 } } ∧
      (let loop := gcmencChunksEffect (gcmencLoopStart s) (nchunks s.len.toNat)
       u.mem = loop.mem ∧ u.y = gfmul (loop.y ^^^ lenblock s.aadlen.toNat s.len.toNat) (E 0) ∧
        u.tag = tagOf (u.y ^^^ E j0) t) ∧
      (∀ a, ¬InRange a s.dstaddr s.len → readByte u a = readByte s a) ∧
      (SameOrDisjoint s.srcaddr s.dstaddr s.len →
        memRead u s.dstaddr.toNat s.len.toNat = (gcmEncrypt E t iv aad p).1 ∧
        u.tag = blk ((gcmEncrypt E t iv aad p).2 ++ zeros (16 - t)) ∧
        u.y = ghashS E aad (gcmEncrypt E t iv aad p).1)

/-- R180, R181, both columns. On a match, for every placement of the buffers, MEM is what pass 2 leaves, chunk after chunk from
CB = `inc32(J0)`: with a partial overlap pass 1 authenticates the original ciphertext and pass 2 reads bytes already overwritten
(R250); when the ranges are identical or disjoint the destination holds the plaintext of `GCM_decrypt`. On a mismatch E_AUTH, with
MEM unchanged. -/
def Obligations.GcmdecVerifiesThenDecrypts : Prop :=
  ∀ s : State, BuffersValid s →
    let E := encryptBlock s.cipher
    let iv := memRead s s.ivaddr.toNat s.ivlen.toNat
    let aad := memRead s s.aadaddr.toNat s.aadlen.toNat
    let c := memRead s s.srcaddr.toNat s.len.toNat
    let t := s.taglen.toNat
    let n := nchunks s.len.toNat
    let j0 := j0Of (E 0) iv
    (∀ p, gcmDecrypt E t iv aad c (left t s.tagin) = some p → CipherAnswers s (n + 2) →
      ∃ u : State, exec .gcmdec s = .next u ∧
        u = { s with
          mem := u.mem, h := E 0, j0 := j0, y := ghashS E aad c, cb := inc32^[n + 1] j0, tag := 0
          cipher := afterCalls s.cipher ([0, j0] ++ counterBlocks (inc32 j0) n)
          status := { ok := true, err := false, errcode := 0 } } ∧
        u.mem = (gctrChunksEffect { s with cb := inc32 j0 } n).mem ∧
        (∀ a, ¬InRange a s.dstaddr s.len → readByte u a = readByte s a) ∧
        (SameOrDisjoint s.srcaddr s.dstaddr s.len → memRead u s.dstaddr.toNat s.len.toNat = p)) ∧
    (gcmDecrypt E t iv aad c (left t s.tagin) = none → CipherAnswers s 2 →
      exec .gcmdec s = .next { s with
        h := E 0, j0 := j0, y := ghashS E aad c, cb := inc32 j0, tag := 0
        cipher := afterCalls s.cipher [0, j0]
        status := { ok := false, err := true, errcode := 5 } })

/-- R218 for GCMENC: the first failing call is number k. Call 0 derives H, calls 1 to n are the chunks', call n + 1 is the tag's. The
micro-steps before it stand: the chunks written, the blocks absorbed, the increments of CB; TAG stays 0. MEM and Y are those of
R174's loop for every placement of the buffers, and those of `GCM_encrypt` when the ranges are identical or disjoint (R250). -/
def Obligations.GcmencStopsAtTheFailingCall : Prop :=
  ∀ (s : State) (k : Nat), BuffersValid s → CipherAnswers s k → callFails s.cipher k = true →
    let E := encryptBlock s.cipher
    let iv := memRead s s.ivaddr.toNat s.ivlen.toNat
    let aad := memRead s s.aadaddr.toNat s.aadlen.toNat
    let p := memRead s s.srcaddr.toNat s.len.toNat
    let c := (gcmEncrypt E s.taglen.toNat iv aad p).1
    let n := nchunks s.len.toNat
    let j0 := j0Of (E 0) iv
    (k = 0 → exec .gcmenc s = .next { s with
      tag := 0, cipher := afterCalls s.cipher [0], status := { ok := false, err := true, errcode := 6 } }) ∧
    (1 ≤ k → k ≤ n + 1 →
      let done := min (16 * (k - 1)) s.len.toNat
      let cb := if k = n + 1 then j0 else inc32^[k] j0
      ∃ u : State, exec .gcmenc s = .next u ∧
        u = { s with
          mem := u.mem, y := u.y, tag := 0, h := E 0, j0 := j0, cb := cb
          cipher := afterCalls s.cipher ([0] ++ counterBlocks (inc32 j0) (k - 1) ++ [cb])
          status := { ok := false, err := true, errcode := 6 } } ∧
        (let loop := gcmencChunksEffect (gcmencLoopStart s) (k - 1)
         u.mem = loop.mem ∧
          u.y = if k = n + 1 then gfmul (loop.y ^^^ lenblock s.aadlen.toNat s.len.toNat) (E 0) else loop.y) ∧
        (∀ a, a < s.dstaddr.toNat ∨ s.dstaddr.toNat + done ≤ a → readByte u a = readByte s a) ∧
        (SameOrDisjoint s.srcaddr s.dstaddr s.len →
          memRead u s.dstaddr.toNat done = c.take done ∧
          u.y = if k = n + 1 then ghashS E aad c else ghashFrom (E 0) 0 (pad128 aad ++ c.take done)))

/-- R218 for GCMDEC: call 0 derives H, call 1 is the tag's, calls 2 to n + 1 are pass 2's, made only on a match. MEM is what the chunks
of pass 2 before the failing call leave, for every placement of the buffers, and holds the plaintext's first chunks when the ranges
are identical or disjoint (R250). -/
def Obligations.GcmdecStopsAtTheFailingCall : Prop :=
  ∀ (s : State) (k : Nat), BuffersValid s → CipherAnswers s k → callFails s.cipher k = true →
    let E := encryptBlock s.cipher
    let iv := memRead s s.ivaddr.toNat s.ivlen.toNat
    let aad := memRead s s.aadaddr.toNat s.aadlen.toNat
    let c := memRead s s.srcaddr.toNat s.len.toNat
    let n := nchunks s.len.toNat
    let j0 := j0Of (E 0) iv
    (k = 0 → exec .gcmdec s = .next { s with
      tag := 0, cipher := afterCalls s.cipher [0], status := { ok := false, err := true, errcode := 6 } }) ∧
    (k = 1 → exec .gcmdec s = .next { s with
      h := E 0, j0 := j0, y := ghashS E aad c, cb := j0, tag := 0, cipher := afterCalls s.cipher [0, j0]
      status := { ok := false, err := true, errcode := 6 } }) ∧
    (2 ≤ k → k ≤ n + 1 → ∀ p, gcmDecrypt E s.taglen.toNat iv aad c (left s.taglen.toNat s.tagin) = some p →
      let done := min (16 * (k - 2)) s.len.toNat
      ∃ u : State, exec .gcmdec s = .next u ∧
        u = { s with
          mem := u.mem, h := E 0, j0 := j0, y := ghashS E aad c, cb := inc32^[k - 1] j0, tag := 0
          cipher := afterCalls s.cipher ([0, j0] ++ counterBlocks (inc32 j0) (k - 1))
          status := { ok := false, err := true, errcode := 6 } } ∧
        u.mem = (gctrChunksEffect { s with cb := inc32 j0 } (k - 2)).mem ∧
        (∀ a, a < s.dstaddr.toNat ∨ s.dstaddr.toNat + done ≤ a → readByte u a = readByte s a) ∧
        (SameOrDisjoint s.srcaddr s.dstaddr s.len → memRead u s.dstaddr.toNat done = p.take done))

/-! ### Whole-machine rules -/

/-- Which error each command can end with (R213, column "raised by"); every command but SRESET ends by `done_ok` or by a raise
(R210 to R212), SRESET by neither. -/
def Obligations.CommandsEndByDoneOkOrTheirOwnErrors : Prop :=
  ∀ (i : Instr) (s : State), ∃ t, exec i s = .next t ∧
    let ok : Prop := t.status = { ok := true, err := false, errcode := 0 }
    let raised (c : BitVec 4) : Prop := t.status = { ok := false, err := true, errcode := c }
    match i with
    | .nop => ok
    | .ghinit => ok
    | .ghblk => ok
    | .ghash => ok ∨ raised 2 ∨ raised 3
    | .hderive => ok ∨ raised 6
    | .j0derive => ok ∨ raised 3
    | .inc32 => ok
    | .gctr => ok ∨ raised 3 ∨ raised 6
    | .gcmcfg _ => ok ∨ raised 1
    | .gcmenc => ok ∨ raised 3 ∨ raised 6
    | .gcmdec => ok ∨ raised 3 ∨ raised 5 ∨ raised 6
    | .sreset => t.status = { ok := false, err := false, errcode := 0 }

/-- "No command reads STATUS" (R25). -/
def Obligations.NoCommandReadsStatus : Prop :=
  ∀ (i : Instr) (s : State) (st : Status), exec i { s with status := st } = exec i s

/-- R214: after a command write that ends in E_TAGLEN, E_ALIGN, E_RANGE or E_CMD only STATUS has changed. -/
def Obligations.ValidationErrorsChangeOnlyStatus : Prop :=
  ∀ (s t : State) (w : Word) (rest : List HostAccess), s.host = .regWrite 0x00 4 w :: rest → step s = .next t →
    t.status.errcode ∈ [1#4, 2#4, 3#4, 4#4] →
    t = { s with host := rest, reply := .nothing, status := t.status }

/-- R221: E_AUTH comes from GCMDEC only; no plaintext is released (MEM unchanged) and the recomputed tag is not readable. -/
def Obligations.AuthErrorReleasesNothing : Prop :=
  ∀ (i : Instr) (s t : State), exec i s = .next t → t.status.errcode = 5 →
    i = .gcmdec ∧ t.mem = s.mem ∧ t.tag = 0

/-- R65: "bytes of MEM outside the output range are never written", for every command, every placement of the buffers, and
every error; the commands without an output range write nothing. -/
def Obligations.OnlyTheDestinationRangeIsWritten : Prop :=
  ∀ (i : Instr) (s t : State) (a : Nat), exec i s = .next t →
    (i ∉ [Instr.gctr, Instr.gcmenc, Instr.gcmdec] ∨ ¬InRange a s.dstaddr s.len) → readByte t a = readByte s a

/-- R21, R22, R26: DIN, TAGIN and the descriptor registers are written by SRESET only, TAGLEN by GCMCFG and SRESET only; and no
command changes the parameters (R35), the accesses to come or the last reply. -/
def Obligations.CommandsLeaveTheOperandRegisters : Prop :=
  ∀ (i : Instr) (s t : State), exec i s = .next t →
    (i ≠ .sreset → t.din = s.din ∧ t.tagin = s.tagin ∧ t.ivaddr = s.ivaddr ∧ t.ivlen = s.ivlen ∧
      t.aadaddr = s.aadaddr ∧ t.aadlen = s.aadlen ∧ t.srcaddr = s.srcaddr ∧ t.dstaddr = s.dstaddr ∧ t.len = s.len) ∧
    (i ≠ .sreset → (∀ x, i ≠ .gcmcfg x) → t.taglen = s.taglen) ∧
    (t.memSize = s.memSize ∧ t.cipher.key = s.cipher.key ∧ t.cipher.known = s.cipher.known ∧
      t.host = s.host ∧ t.reply = s.reply)

/-- R118: the GHASH unit's commands write Y and STATUS and nothing else, make no Cipher call and no MemWrite; GHINIT and GHBLK do
not look at MEM. -/
def Obligations.GhashUnitIsPure : Prop :=
  (∀ i ∈ [Instr.ghinit, Instr.ghblk, Instr.ghash], ∀ s : State,
    ∃ t, exec i s = .next t ∧ t = { s with y := t.y, status := t.status }) ∧
  (∀ i ∈ [Instr.ghinit, Instr.ghblk], ∀ (s t : State) (m : Memory), exec i s = .next t →
    exec i { s with mem := m } = .next { t with mem := m })

/-- R37: no value left in H, Y, J0, CB, TAG by an earlier command or by the host influences a GCMENC or GCMDEC: MEM, STATUS and
the Cipher calls do not depend on them, nor do the five registers themselves once the command ends by `done_ok` or E_AUTH. -/
def Obligations.WorkingValuesDoNotReachTheNextMessage : Prop :=
  ∀ (s : State) (h y j0 cb tag : Block), ∀ i ∈ [Instr.gcmenc, Instr.gcmdec],
    ∃ t u : State, exec i s = .next t ∧ exec i { s with h := h, y := y, j0 := j0, cb := cb, tag := tag } = .next u ∧
      t.mem = u.mem ∧ t.status = u.status ∧ t.cipher = u.cipher ∧
      (t.status.err = false ∨ t.status.errcode = 5 → t = u)

/-- R182: after E_AUTH every observable is the same for every mismatching TAGIN. -/
def Obligations.AuthErrorDoesNotTellWhereTheTagsDiffer : Prop :=
  ∀ (s t u : State) (x : Block), exec .gcmdec s = .next t → exec .gcmdec { s with tagin := x } = .next u →
    t.status.errcode = 5 → u.status.errcode = 5 → u = { t with tagin := x }

/-- R180, R183(c): where a GCMDEC accepts, one with another TAGIN accepts too, to the same state, when the leftmost TAGLEN bytes
are the same ("the other 16 - t bytes of TAGIN are ignored"), and ends in E_AUTH with MEM unchanged when they are not. -/
def Obligations.OnlyTheLeftmostTagBytesDecide : Prop :=
  ∀ (s t : State) (x : Block), LegalTagLength s.taglen.toNat →
    exec .gcmdec s = .next t → t.status = { ok := true, err := false, errcode := 0 } →
    (left s.taglen.toNat x = left s.taglen.toNat s.tagin →
      exec .gcmdec { s with tagin := x } = .next { t with tagin := x }) ∧
    (left s.taglen.toNat x ≠ left s.taglen.toNat s.tagin → ∃ u : State,
      exec .gcmdec { s with tagin := x } = .next u ∧
      u.status = { ok := false, err := true, errcode := 5 } ∧ u.mem = s.mem)

/-- R218: a command ends in E_PRIM exactly at its first failing call: every call before it answered, and it is the last call
made. -/
def Obligations.PrimErrorIsTheFirstFailingCall : Prop :=
  ∀ (i : Instr) (s t : State), exec i s = .next t → t.status.errcode = 6 →
    ∃ k, callFails s.cipher k = true ∧ CipherAnswers s k ∧
      t.cipher.calls.length = s.cipher.calls.length + k + 1 ∧ t.cipher.fails = s.cipher.fails.drop (k + 1)

/-- R260, column "Cipher calls": how many calls each command makes when none fails and it raises no validation error. -/
def Obligations.CipherCallsAreCounted : Prop :=
  ∀ (i : Instr) (s t : State), exec i s = .next t → t.status.errcode ∉ [1#4, 2#4, 3#4, 6#4] →
    let made := t.cipher.calls.length - s.cipher.calls.length
    match i with
    | .nop => made = 0
    | .ghinit => made = 0
    | .ghblk => made = 0
    | .ghash => made = 0
    | .hderive => made = 1
    | .j0derive => made = 0
    | .inc32 => made = 0
    | .gctr => made = nchunks s.len.toNat
    | .gcmcfg _ => made = 0
    | .gcmenc => made = nchunks s.len.toNat + 2
    | .gcmdec => made = if t.status.errcode = 5 then 2 else nchunks s.len.toNat + 2
    | .sreset => made = 0

/-! ### The arithmetic and the pure functions -/

/-- The laws of R111. -/
def Obligations.GfmulFieldLaws : Prop :=
  let one : Block := 0x80000000000000000000000000000000
  let xp : Block := 0x40000000000000000000000000000000
  let r : Block := 0xE1000000000000000000000000000000
  (∀ a b, gfmul a b = gfmul b a) ∧ (∀ a, gfmul a 0 = 0 ∧ gfmul 0 a = 0) ∧ (∀ a, gfmul a one = a) ∧
  (∀ a b c, gfmul (a ^^^ b) c = gfmul a c ^^^ gfmul b c) ∧
  (∀ a, (a.getLsbD 0 = false → gfmul xp a = a >>> 1) ∧ (a.getLsbD 0 = true → gfmul xp a = (a >>> 1) ^^^ r)) ∧
  (∀ a b c, gfmul (gfmul a b) c = gfmul a (gfmul b c))

/-- `gfmul` is multiplication modulo x^128 + x^7 + x^2 + x + 1 over GF(2), a block read as the polynomial whose coefficient of
x^i is bit 127 - i (R9, "from general knowledge"; R110). -/
def Obligations.GfmulIsMultiplicationOfPolynomials : Prop :=
  let poly (b : Block) : Polynomial (ZMod 2) :=
    ∑ i ∈ Finset.range 128, if b.getLsbD (127 - i) then Polynomial.X ^ i else 0
  let modulus : Polynomial (ZMod 2) :=
    Polynomial.X ^ 128 + Polynomial.X ^ 7 + Polynomial.X ^ 2 + Polynomial.X + 1
  ∀ a b : Block, modulus ∣ poly (gfmul a b) - poly a * poly b

/-- The block loop of `GHASH_H` as R115 writes it, run by GHASH on the source buffer (R116): "For each successive 16-byte block Xi
of X (in order), set Y = (Y XOR Xi) multiplied by H" (R112), from Y = 0. -/
def Obligations.GhashAbsorbsBlockAfterBlock : Prop :=
  ∀ s : State, s.len.toNat % 16 = 0 → ValidRange s.memSize s.srcaddr s.len → ∃ t, exec .ghash s = .next t ∧
    t.y = (List.range (s.len.toNat / 16)).foldl
      (fun y j => gfmul (y ^^^ blk (memRead s (s.srcaddr.toNat + 16 * j) 16)) s.h) 0

/-- R141: only the low 32 bits count, modulo 2^32, and 2^32 increments are the identity. -/
def Obligations.Inc32CountsModuloTwoToThe32 : Prop :=
  ∀ b : Block, (inc32 b).extractLsb' 32 96 = b.extractLsb' 32 96 ∧
    ((inc32 b).extractLsb' 0 32).toNat = ((b.extractLsb' 0 32).toNat + 1) % 2 ^ 32 ∧ inc32^[2 ^ 32] b = b

/-- R145: applying `GCTR_fn` twice with the same initial counter block returns the data; the length is kept, and CB ends
incremented once per chunk. -/
def Obligations.GctrFnIsAnInvolution : Prop :=
  ∀ (E : Block → Block) (icb : Block) (x : List Byte),
    (gctrFn E icb (gctrFn E icb x).1).1 = x ∧ (gctrFn E icb x).1.length = x.length ∧
    (gctrFn E icb x).2 = inc32^[nchunks x.length] icb

/-- R149: the length block is the integer (8a) 2^64 + 8c. -/
def Obligations.LengthBlockHoldsTheBitCounts : Prop :=
  ∀ a c : Nat, a < 2 ^ 32 → c < 2 ^ 32 → (lenblock a c).toNat = 8 * a * 2 ^ 64 + 8 * c

/-- R172: the leftmost t bytes, then 16 - t zero bytes; t = 16 gives the full tag. -/
def Obligations.TagOfKeepsTheLeftmostBytes : Prop :=
  ∀ (full : Block) (t : Nat), t ∈ [4, 8, 12, 13, 14, 15, 16] →
    bytes16 (tagOf full t) = left t full ++ zeros (16 - t) ∧ left t (tagOf full t) = left t full ∧
      (t = 16 → tagOf full t = full)

/-- R10: `blk` and `bytes16` are inverse, and byte j of a block is `B[127-8j : 120-8j]`. -/
def Obligations.BlocksAndByteStringsCorrespond : Prop :=
  (∀ b : Block, blk (bytes16 b) = b) ∧ (∀ s : List Byte, s.length = 16 → bytes16 (blk s) = s) ∧
  ∀ (b : Block) (j : Nat), j < 16 → (bytes16 b)[j]? = some (b.extractLsb' (120 - 8 * j) 8)

/-- R183(a), (b): decryption undoes encryption, for every cipher, IV, AAD, plaintext and legal tag length; the tag has its length
and the ciphertext the plaintext's. -/
def Obligations.DecryptUndoesEncrypt : Prop :=
  ∀ (E : Block → Block) (t : Nat) (iv aad p : List Byte), LegalTagLength t →
    gcmDecrypt E t iv aad (gcmEncrypt E t iv aad p).1 (gcmEncrypt E t iv aad p).2 = some p ∧
    (gcmEncrypt E t iv aad p).2.length = t ∧ (gcmEncrypt E t iv aad p).1.length = p.length
end

