-- ==== Sys2Proof/Laws/State.lean ====
section
/-! SUPPORT. One lemma per record update: what each of the model's updates leaves in each field, true by rfl. A frame lemma is a
conjunction of one equation per field, which simp uses field by field. -/

namespace Sys2Proof.Machine

variable (s : State)

@[simp] theorem doneOk_status : (doneOk s).status = statusOk := rfl

@[simp] theorem doneOk_frame :
    (doneOk s).h = s.h ∧ (doneOk s).y = s.y ∧ (doneOk s).din = s.din ∧ (doneOk s).j0 = s.j0 ∧ (doneOk s).cb = s.cb ∧
    (doneOk s).tag = s.tag ∧ (doneOk s).tagin = s.tagin ∧ (doneOk s).ivaddr = s.ivaddr ∧ (doneOk s).ivlen = s.ivlen ∧
    (doneOk s).aadaddr = s.aadaddr ∧ (doneOk s).aadlen = s.aadlen ∧ (doneOk s).srcaddr = s.srcaddr ∧
    (doneOk s).dstaddr = s.dstaddr ∧ (doneOk s).len = s.len ∧ (doneOk s).taglen = s.taglen ∧ (doneOk s).mem = s.mem ∧
    (doneOk s).memSize = s.memSize ∧ (doneOk s).cipher = s.cipher ∧ (doneOk s).host = s.host ∧
    (doneOk s).reply = s.reply := by
  refine ⟨?_, ?_, ?_, ?_, ?_, ?_, ?_, ?_, ?_, ?_, ?_, ?_, ?_, ?_, ?_, ?_, ?_, ?_, ?_, ?_⟩ <;> rfl

variable (e : ErrorCode)

@[simp] theorem raise_status : (raise e s).status = statusError e := rfl

@[simp] theorem raise_frame :
    (raise e s).h = s.h ∧ (raise e s).y = s.y ∧ (raise e s).din = s.din ∧ (raise e s).j0 = s.j0 ∧ (raise e s).cb = s.cb ∧
    (raise e s).tag = s.tag ∧ (raise e s).tagin = s.tagin ∧ (raise e s).ivaddr = s.ivaddr ∧ (raise e s).ivlen = s.ivlen ∧
    (raise e s).aadaddr = s.aadaddr ∧ (raise e s).aadlen = s.aadlen ∧ (raise e s).srcaddr = s.srcaddr ∧
    (raise e s).dstaddr = s.dstaddr ∧ (raise e s).len = s.len ∧ (raise e s).taglen = s.taglen ∧ (raise e s).mem = s.mem ∧
    (raise e s).memSize = s.memSize ∧ (raise e s).cipher = s.cipher ∧ (raise e s).host = s.host ∧
    (raise e s).reply = s.reply := by
  refine ⟨?_, ?_, ?_, ?_, ?_, ?_, ?_, ?_, ?_, ?_, ?_, ?_, ?_, ?_, ?_, ?_, ?_, ?_, ?_, ?_⟩ <;> rfl

variable (b : Block)

@[simp] theorem absorb_y : (absorb b s).y = gfmul (s.y ^^^ b) s.h := rfl

@[simp] theorem absorb_frame :
    (absorb b s).h = s.h ∧ (absorb b s).din = s.din ∧ (absorb b s).j0 = s.j0 ∧ (absorb b s).cb = s.cb ∧
    (absorb b s).tag = s.tag ∧ (absorb b s).tagin = s.tagin ∧ (absorb b s).ivaddr = s.ivaddr ∧
    (absorb b s).ivlen = s.ivlen ∧ (absorb b s).aadaddr = s.aadaddr ∧ (absorb b s).aadlen = s.aadlen ∧
    (absorb b s).srcaddr = s.srcaddr ∧ (absorb b s).dstaddr = s.dstaddr ∧ (absorb b s).len = s.len ∧
    (absorb b s).taglen = s.taglen ∧ (absorb b s).status = s.status ∧ (absorb b s).mem = s.mem ∧
    (absorb b s).memSize = s.memSize ∧ (absorb b s).cipher = s.cipher ∧ (absorb b s).host = s.host ∧
    (absorb b s).reply = s.reply := by
  refine ⟨?_, ?_, ?_, ?_, ?_, ?_, ?_, ?_, ?_, ?_, ?_, ?_, ?_, ?_, ?_, ?_, ?_, ?_, ?_, ?_⟩ <;> rfl

@[simp] theorem incCb_cb : (incCb s).cb = inc32 s.cb := rfl

@[simp] theorem incCb_frame :
    (incCb s).h = s.h ∧ (incCb s).y = s.y ∧ (incCb s).din = s.din ∧ (incCb s).j0 = s.j0 ∧
    (incCb s).tag = s.tag ∧ (incCb s).tagin = s.tagin ∧ (incCb s).ivaddr = s.ivaddr ∧ (incCb s).ivlen = s.ivlen ∧
    (incCb s).aadaddr = s.aadaddr ∧ (incCb s).aadlen = s.aadlen ∧ (incCb s).srcaddr = s.srcaddr ∧
    (incCb s).dstaddr = s.dstaddr ∧ (incCb s).len = s.len ∧ (incCb s).taglen = s.taglen ∧
    (incCb s).status = s.status ∧ (incCb s).mem = s.mem ∧ (incCb s).memSize = s.memSize ∧
    (incCb s).cipher = s.cipher ∧ (incCb s).host = s.host ∧ (incCb s).reply = s.reply := by
  refine ⟨?_, ?_, ?_, ?_, ?_, ?_, ?_, ?_, ?_, ?_, ?_, ?_, ?_, ?_, ?_, ?_, ?_, ?_, ?_, ?_⟩ <;> rfl

variable (a : Nat) (data : List Byte)

@[simp] theorem memWrite_mem : (memWrite a data s).mem = Memory.setBytes s.mem a data := rfl

@[simp] theorem memWrite_frame :
    (memWrite a data s).h = s.h ∧ (memWrite a data s).y = s.y ∧ (memWrite a data s).din = s.din ∧
    (memWrite a data s).j0 = s.j0 ∧ (memWrite a data s).cb = s.cb ∧ (memWrite a data s).tag = s.tag ∧
    (memWrite a data s).tagin = s.tagin ∧ (memWrite a data s).ivaddr = s.ivaddr ∧
    (memWrite a data s).ivlen = s.ivlen ∧ (memWrite a data s).aadaddr = s.aadaddr ∧
    (memWrite a data s).aadlen = s.aadlen ∧ (memWrite a data s).srcaddr = s.srcaddr ∧
    (memWrite a data s).dstaddr = s.dstaddr ∧ (memWrite a data s).len = s.len ∧
    (memWrite a data s).taglen = s.taglen ∧ (memWrite a data s).status = s.status ∧
    (memWrite a data s).memSize = s.memSize ∧ (memWrite a data s).cipher = s.cipher ∧
    (memWrite a data s).host = s.host ∧ (memWrite a data s).reply = s.reply := by
  refine ⟨?_, ?_, ?_, ?_, ?_, ?_, ?_, ?_, ?_, ?_, ?_, ?_, ?_, ?_, ?_, ?_, ?_, ?_, ?_, ?_⟩ <;> rfl

variable (r : HostReply)

@[simp] theorem answer_reply : (answer r s).reply = r := rfl

@[simp] theorem answer_frame :
    (answer r s).h = s.h ∧ (answer r s).y = s.y ∧ (answer r s).din = s.din ∧ (answer r s).j0 = s.j0 ∧
    (answer r s).cb = s.cb ∧ (answer r s).tag = s.tag ∧ (answer r s).tagin = s.tagin ∧
    (answer r s).ivaddr = s.ivaddr ∧ (answer r s).ivlen = s.ivlen ∧ (answer r s).aadaddr = s.aadaddr ∧
    (answer r s).aadlen = s.aadlen ∧ (answer r s).srcaddr = s.srcaddr ∧ (answer r s).dstaddr = s.dstaddr ∧
    (answer r s).len = s.len ∧ (answer r s).taglen = s.taglen ∧ (answer r s).status = s.status ∧
    (answer r s).mem = s.mem ∧ (answer r s).memSize = s.memSize ∧ (answer r s).cipher = s.cipher ∧
    (answer r s).host = s.host := by
  refine ⟨?_, ?_, ?_, ?_, ?_, ?_, ?_, ?_, ?_, ?_, ?_, ?_, ?_, ?_, ?_, ?_, ?_, ?_, ?_, ?_⟩ <;> rfl

/-- A data register reads as it was written, and the others as before. -/
@[simp] theorem getData_setData_same (g : DataReg) : getData (setData g b s) g = b := by cases g <;> rfl

theorem getData_setData_other (g g' : DataReg) (h : g' ≠ g) : getData (setData g b s) g' = getData s g' := by
  cases g <;> cases g' <;> first | rfl | exact absurd rfl h

/-- A descriptor register reads as it was written, and the others as before. -/
@[simp] theorem getDesc_setDesc_same (g : DescReg) (v : Word) : getDesc (setDesc g v s) g = v := by cases g <;> rfl

theorem getDesc_setDesc_other (g g' : DescReg) (v : Word) (h : g' ≠ g) :
    getDesc (setDesc g v s) g' = getDesc s g' := by
  cases g <;> cases g' <;> first | rfl | exact absurd rfl h

end Sys2Proof.Machine
end

