-- ==== Sys2Proof/Laws/Memory.lean ====
section
/-! SUPPORT. The laws of MEM (spec/20_memory.md R60): read after write, frames, the canonical form, the listed addresses. -/

namespace Sys2Proof.Machine

variable (m : Memory) (a c : Nat) (b : Byte)

@[simp] theorem Memory.get_set_same : Memory.get (Memory.set m a b) a = some b := by
  induction m with
  | nil => simp [Memory.set, Memory.get]
  | cons x m ih =>
    simp only [Memory.set]
    split_ifs with h₁ h₂
    · simp [Memory.get]
    · simp [Memory.get]
    · simpa [Memory.get, h₂] using ih

theorem Memory.get_set_other (h : c ≠ a) : Memory.get (Memory.set m a b) c = Memory.get m c := by
  induction m with
  | nil => simp [Memory.set, Memory.get, h]
  | cons x m ih =>
    simp only [Memory.set]
    split_ifs with h₁ h₂
    · simp [Memory.get, h]
    · subst h₂; simp [Memory.get, h]
    · simp [Memory.get, ih]

/-- The entries after a write: the one written, and entries that stood before. -/
theorem Memory.mem_set {x : Host.Cell} (h : x ∈ Memory.set m a b) : x = (a, b) ∨ x ∈ m := by
  induction m with
  | nil => simpa [Memory.set] using h
  | cons y m ih =>
    simp only [Memory.set] at h
    split_ifs at h with h₁ h₂
    · simpa using h
    · simp only [List.mem_cons] at h ⊢; tauto
    · rcases List.mem_cons.1 h with h | h
      · simp [h]
      · rcases ih h with h | h <;> simp [h]

theorem Memory.wf_set (h : Memory.wf m) : Memory.wf (Memory.set m a b) := by
  induction m with
  | nil => simp [Memory.set, Memory.wf]
  | cons y m ih =>
    simp only [Memory.wf, List.map_cons, List.pairwise_cons, List.mem_map, forall_exists_index, and_imp] at h
    obtain ⟨hlt, hm⟩ := h
    simp only [Memory.set]
    split_ifs with h₁ h₂
    · simp only [Memory.wf, List.map_cons, List.pairwise_cons]
      refine ⟨?_, ?_, hm⟩
      · rintro _ (_ | ⟨_, h⟩)
        · exact h₁
        · obtain ⟨z, hz, rfl⟩ := List.mem_map.1 h
          exact h₁.trans (hlt _ z hz rfl)
      · rintro _ h
        obtain ⟨z, hz, rfl⟩ := List.mem_map.1 h
        exact hlt _ z hz rfl
    · subst h₂
      simp only [Memory.wf, List.map_cons, List.pairwise_cons]
      refine ⟨fun _ h => ?_, hm⟩
      obtain ⟨z, hz, rfl⟩ := List.mem_map.1 h
      exact hlt _ z hz rfl
    · simp only [Memory.wf, List.map_cons, List.pairwise_cons]
      refine ⟨fun _ h => ?_, ih hm⟩
      obtain ⟨z, hz, rfl⟩ := List.mem_map.1 h
      rcases Memory.mem_set m a b hz with rfl | hz
      · exact lt_of_le_of_ne (not_lt.1 h₁) (fun h => h₂ h.symm)
      · exact hlt _ z hz rfl

theorem Memory.wf_setBytes (bs : List Byte) : ∀ (m : Memory) (a : Nat), Memory.wf m → Memory.wf (Memory.setBytes m a bs) := by
  induction bs with
  | nil => exact fun _ _ h => h
  | cons b bs ih => exact fun m a h => ih _ _ (Memory.wf_set m a b h)

/-- The entries after a write of a byte string lie where the string was written, or stood before. -/
theorem Memory.mem_setBytes {x : Host.Cell} (bs : List Byte) : ∀ (m : Memory) (a : Nat), x ∈ Memory.setBytes m a bs →
    (a ≤ x.1 ∧ x.1 < a + bs.length) ∨ x ∈ m := by
  induction bs with
  | nil => exact fun _ _ h => .inr h
  | cons b bs ih =>
    intro m a h
    rcases ih _ _ h with h | h
    · left; simp; omega
    · rcases Memory.mem_set m a b h with rfl | h
      · left; simp
      · exact .inr h

theorem Memory.get_setBytes_outside (bs : List Byte) : ∀ (m : Memory) (a : Nat), c < a ∨ a + bs.length ≤ c →
    Memory.get (Memory.setBytes m a bs) c = Memory.get m c := by
  induction bs with
  | nil => exact fun _ _ _ => rfl
  | cons b bs ih =>
    intro m a h
    simp only [List.length_cons] at h
    rw [Memory.setBytes, ih _ _ (by omega), Memory.get_set_other _ _ _ _ (by omega)]

theorem Memory.get_setBytes_inside (bs : List Byte) : ∀ (m : Memory) (a i : Nat), i < bs.length →
    Memory.get (Memory.setBytes m a bs) (a + i) = bs[i]? := by
  induction bs with
  | nil => intro m a i h; simp at h
  | cons b bs ih =>
    intro m a i h
    cases i with
    | zero =>
      rw [Memory.setBytes, Memory.get_setBytes_outside _ _ _ _ (by omega)]
      simp
    | succ i =>
      simp only [List.length_cons] at h
      rw [Memory.setBytes, show a + (i + 1) = a + 1 + i by omega, ih _ _ _ (by omega)]
      simp

/-! ### Reads of the state -/

variable (s : State) (n : Nat) (data : List Byte)

/-- A read looks at the written bytes only. -/
theorem readByte_congr {s t : State} {a : Nat} (h : Memory.get s.mem a = Memory.get t.mem a) : readByte s a = readByte t a := by
  simp [readByte, h]

@[simp] theorem memRead_length : (memRead s a n).length = n := by simp [memRead]

theorem memRead_getElem? (i : Nat) (h : i < n) : (memRead s a n)[i]? = some (readByte s (a + i)) := by
  simp [memRead, h]

/-- A buffer reads alike in two states that agree on its bytes. -/
theorem memRead_congr {s t : State} {a n : Nat} (h : ∀ i < n, readByte s (a + i) = readByte t (a + i)) :
    memRead s a n = memRead t a n := by
  simp only [memRead, List.map_inj_left, List.mem_range]
  exact h

/-- A buffer cut in two. -/
theorem memRead_add (k : Nat) : memRead s a (n + k) = memRead s a n ++ memRead s (a + n) k := by
  simp [memRead, List.range_add, Function.comp_def, Nat.add_assoc]

theorem readByte_memWrite_outside (h : c < a ∨ a + data.length ≤ c) :
    readByte (memWrite a data s) c = readByte s c :=
  readByte_congr (Memory.get_setBytes_outside c data s.mem a h)

theorem readByte_memWrite_inside (i : Nat) (h : i < data.length) :
    some (readByte (memWrite a data s) (a + i)) = data[i]? := by
  have := Memory.get_setBytes_inside data s.mem a i h
  rw [List.getElem?_eq_getElem h] at this ⊢
  simp [readByte, memWrite, this]

/-- Read after write. -/
theorem memRead_memWrite : memRead (memWrite a data s) a data.length = data := by
  refine List.ext_getElem? fun i => ?_
  by_cases h : i < data.length
  · rw [memRead_getElem? _ _ _ _ h, readByte_memWrite_inside _ _ _ _ h]
  · rw [List.getElem?_eq_none (by simpa using h), List.getElem?_eq_none (by simpa using h)]

end Sys2Proof.Machine
end

