-- ==== Sys2Proof/Laws/Ops.lean ====
section
/-! SUPPORT. One lemma per shared operation: what it can do. Provers cite these and do not unfold the operation. -/

namespace Sys2Proof.Machine

/-! ### Progress: how far a command has come -/

@[simp] theorem andThen_running (s : State) (next : State → Progress) : (Progress.running s).andThen next = next s := rfl

@[simp] theorem andThen_raised (e : ErrorCode) (s : State) (next : State → Progress) :
    (Progress.raised e s).andThen next = .raised e s := rfl

@[simp] theorem finish_running (s : State) : (Progress.running s).finish = doneOk s := rfl

@[simp] theorem finish_raised (e : ErrorCode) (s : State) : (Progress.raised e s).finish = raise e s := rfl

theorem andThen_assoc (p : Progress) (f g : State → Progress) :
    (p.andThen f).andThen g = p.andThen fun s => (f s).andThen g := by cases p <;> rfl

/-- `P` holds of the state reached, and `Q` of the error with it, if the command is over. -/
def Progress.Holds (P : State → Prop) (Q : ErrorCode → State → Prop) : Progress → Prop
  | .running s => P s
  | .raised e s => Q e s

/-- The rule of sequencing: all that is said of the second part is said of the states the first can reach. -/
theorem holds_andThen {P P' : State → Prop} {Q : ErrorCode → State → Prop} {p : Progress} {next : State → Progress}
    (hp : p.Holds P Q) (hn : ∀ s, P s → (next s).Holds P' Q) : (p.andThen next).Holds P' Q := by
  cases p with
  | running s => exact hn s hp
  | raised e s => exact hp

theorem holds_mono {P P' : State → Prop} {Q Q' : ErrorCode → State → Prop} {p : Progress} (hp : p.Holds P Q)
    (hP : ∀ s, P s → P' s) (hQ : ∀ e s, Q e s → Q' e s) : p.Holds P' Q' := by
  cases p with
  | running s => exact hP s hp
  | raised e s => exact hQ e s hp

/-- The rule of the loop: an invariant `I i` before iteration i. -/
theorem holds_forChunks {I : Nat → State → Prop} {Q : ErrorCode → State → Prop} {body : Nat → State → Progress}
    (hb : ∀ i s, I i s → (body i s).Holds (I (i + 1)) Q) :
    ∀ (k i : Nat) (s : State), I i s → (forChunks body i k s).Holds (I (i + k)) Q := by
  intro k
  induction k with
  | zero => exact fun i s h => h
  | succ k ih =>
    intro i s h
    refine holds_andThen (hb i s h) fun t ht => ?_
    rw [show i + (k + 1) = i + 1 + k by omega]
    exact ih (i + 1) t ht

/-- The same for a loop whose iterations are bounded. -/
theorem holds_forChunks_lt {I : Nat → State → Prop} {Q : ErrorCode → State → Prop} {body : Nat → State → Progress}
    (n : Nat) (hb : ∀ i s, i < n → I i s → (body i s).Holds (I (i + 1)) Q) (s : State) (h : I 0 s) :
    (forChunks body 0 n s).Holds (I n) Q := by
  suffices ∀ k i s, i + k = n → I i s → (forChunks body i k s).Holds (I n) Q from this n 0 s (by omega) h
  intro k
  induction k with
  | zero => intro i s hi h; obtain rfl : i = n := by omega
            exact h
  | succ k ih =>
    intro i s hi h
    exact holds_andThen (hb i s (by omega) h) fun t ht => ih (i + 1) t (by omega) ht

/-- Every command's end: `done_ok` of a running state, or `raise` of a state over by an error. -/
theorem finish_of_holds {P : State → Prop} {Q : ErrorCode → State → Prop} {p : Progress} (h : p.Holds P Q) :
    (∃ s, P s ∧ p.finish = doneOk s) ∨ ∃ e s, Q e s ∧ p.finish = raise e s := by
  cases p with
  | running s => exact .inl ⟨s, h, rfl⟩
  | raised e s => exact .inr ⟨e, s, h, rfl⟩

/-- A loop cut in two. -/
theorem forChunks_add (body : Nat → State → Progress) : ∀ (j i k : Nat) (s : State),
    forChunks body i (j + k) s = (forChunks body i j s).andThen (forChunks body (i + j) k) := by
  intro j
  induction j with
  | zero => intro i k s; simp [forChunks]
  | succ j ih =>
    intro i k s
    rw [show j + 1 + k = (j + k) + 1 by omega, forChunks, forChunks, andThen_assoc]
    congr 1
    funext t
    rw [ih, show i + 1 + j = i + (j + 1) by omega]

/-- One more iteration at the end. -/
theorem forChunks_succ_last (body : Nat → State → Progress) (i k : Nat) (s : State) :
    forChunks body i (k + 1) s = (forChunks body i k s).andThen (body (i + k)) := by
  rw [forChunks_add]
  congr 1
  funext t
  rw [forChunks]
  cases body (i + k) t <;> rfl

/-! ### The range checks -/

theorem requireRange_of_valid {a n : Word} {s : State} (h : ValidRange s.memSize a n) :
    requireRange a n s = .running s := if_pos h

theorem requireRange_of_invalid {a n : Word} {s : State} (h : ¬ValidRange s.memSize a n) :
    requireRange a n s = .raised .eRange s := if_neg h

/-- `check_buffers` goes on exactly when the four ranges are valid, and changes nothing. -/
theorem checkBuffers_of_valid {s : State} (h : BuffersValid s) : checkBuffers s = .running s := by
  obtain ⟨h₁, h₂, h₃, h₄⟩ := h
  simp [checkBuffers, requireRange_of_valid, *]

theorem checkBuffers_of_invalid {s : State} (h : ¬BuffersValid s) : checkBuffers s = .raised .eRange s := by
  unfold checkBuffers
  by_cases h₁ : ValidRange s.memSize s.ivaddr s.ivlen
  · rw [requireRange_of_valid h₁, andThen_running]
    by_cases h₂ : ValidRange s.memSize s.aadaddr s.aadlen
    · rw [requireRange_of_valid h₂, andThen_running]
      by_cases h₃ : ValidRange s.memSize s.srcaddr s.len
      · rw [requireRange_of_valid h₃, andThen_running]
        exact requireRange_of_invalid fun h₄ => h ⟨h₁, h₂, h₃, h₄⟩
      · rw [requireRange_of_invalid h₃, andThen_raised]
    · rw [requireRange_of_invalid h₂, andThen_raised]
  · rw [requireRange_of_invalid h₁, andThen_raised]

/-! ### The cipher port -/

theorem recordCall_eq_afterCalls (b : Block) (c : CipherPort) : recordCall b c = afterCalls c [b] := by
  simp [recordCall, afterCalls]

@[simp] theorem afterCalls_nil (c : CipherPort) : afterCalls c [] = c := by simp [afterCalls]

@[simp] theorem afterCalls_afterCalls (c : CipherPort) (bs cs : List Block) :
    afterCalls (afterCalls c bs) cs = afterCalls c (bs ++ cs) := by
  simp [afterCalls]

/-- Calls do not change the cipher's function. -/
@[simp] theorem encryptBlock_afterCalls (c : CipherPort) (bs : List Block) :
    encryptBlock (afterCalls c bs) = encryptBlock c := rfl

/-- Each call uses up one draw. -/
@[simp] theorem callFails_afterCalls (c : CipherPort) (bs : List Block) (k : Nat) :
    callFails (afterCalls c bs) k = callFails c (bs.length + k) := by
  simp [callFails, afterCalls, Nat.add_assoc]

theorem withCipher_of_answer {b : Block} {s : State} (next : Block → State → Progress) (h : callFails s.cipher 0 = false) :
    withCipher b s next = next (encryptBlock s.cipher b) { s with cipher := afterCalls s.cipher [b] } := by
  simp [withCipher, h, recordCall_eq_afterCalls]

theorem withCipher_of_fail {b : Block} {s : State} (next : Block → State → Progress) (h : callFails s.cipher 0 = true) :
    withCipher b s next = .raised .ePrim { s with cipher := afterCalls s.cipher [b] } := by
  simp [withCipher, h, recordCall_eq_afterCalls]

/-- What a Cipher call can do: E_PRIM, or the micro-steps after it on the answer; the call is recorded either way. -/
theorem holds_withCipher {P : State → Prop} {Q : ErrorCode → State → Prop} {b : Block} {s : State}
    {next : Block → State → Progress}
    (hf : callFails s.cipher 0 = true → Q .ePrim { s with cipher := afterCalls s.cipher [b] })
    (ha : callFails s.cipher 0 = false →
      (next (encryptBlock s.cipher b) { s with cipher := afterCalls s.cipher [b] }).Holds P Q) :
    (withCipher b s next).Holds P Q := by
  cases h : callFails s.cipher 0 with
  | true => rw [withCipher_of_fail next h]; exact hf h
  | false => rw [withCipher_of_answer next h]; exact ha h

end Sys2Proof.Machine
end

