-- ==== Sys2Proof/Laws/Bytes.lean ====
section
/-! SUPPORT. Byte strings, blocks and chunks: lengths, and the bits of `blk` and `bytes16` (spec/00_scope.md R9, R10;
20_memory.md R66). -/

namespace Sys2Proof.Machine

/-! ### Lengths -/

@[simp] theorem zeros_length (n : Nat) : (zeros n).length = n := by simp [zeros]

@[simp] theorem bytes16_length (b : Block) : (bytes16 b).length = 16 := by simp [bytes16]

@[simp] theorem left_length (t : Nat) (b : Block) : (left t b).length = min t 16 := by simp [left]

@[simp] theorem u64be_length (n : Nat) : (u64be n).length = 8 := by simp [u64be]

@[simp] theorem xorBytes_length (s t : List Byte) : (xorBytes s t).length = min s.length t.length := by simp [xorBytes]

@[simp] theorem pad128_length (s : List Byte) : (pad128 s).length = s.length + (16 - s.length % 16) % 16 := by
  simp [pad128]

theorem pad128_length_mod (s : List Byte) : (pad128 s).length % 16 = 0 := by simp; omega

@[simp] theorem pad128_nil : pad128 [] = [] := by simp [pad128, zeros]

@[simp] theorem chunk_length (s : State) (a n i : Nat) : (chunk s a n i).length = min 16 (n - 16 * i) := by
  simp [chunk, chunkLen]

/-- Chunk i of an n-byte buffer has at least one byte when `i < nchunks n`, and 16 when another follows. -/
theorem lt_nchunks_iff (n i : Nat) : i < nchunks n ↔ 16 * i < n := by unfold nchunks; omega

@[simp] theorem nchunks_zero : nchunks 0 = 0 := rfl

/-- One chunk fewer after the first 16 bytes. -/
theorem nchunks_of_pos {n : Nat} (h : 0 < n) : nchunks n = nchunks (n - 16) + 1 := by unfold nchunks; omega

/-! ### Bits -/

theorem blk_append_singleton (s : List Byte) (b : Byte) : blk (s ++ [b]) = blk s <<< 8 ||| b.setWidth 128 := by
  simp [blk, List.foldl_append]

/-- Bit i of `blk s`: bit `i mod 8` of the byte `i / 8` places from the right. -/
theorem blk_getLsbD (s : List Byte) : ∀ i < 128, (blk s).getLsbD i =
    if i / 8 < s.length then (s.getD (s.length - 1 - i / 8) 0).getLsbD (i % 8) else false := by
  induction s using List.reverseRecOn with
  | nil => intro i _; simp [blk]
  | append_singleton s b ih =>
    intro i hi
    rw [blk_append_singleton]
    simp only [BitVec.getLsbD_or, BitVec.getLsbD_shiftLeft, BitVec.getLsbD_setWidth, hi, decide_true, Bool.true_and,
      List.length_append, List.length_singleton]
    by_cases h : i < 8
    · have h0 : i / 8 = 0 := by omega
      have hm : i % 8 = i := by omega
      simp [h, h0, hm]
    · rw [ih _ (by omega)]
      have hb : b.getLsbD i = false := BitVec.getLsbD_of_ge _ _ (by omega)
      have hd : (i - 8) / 8 = i / 8 - 1 := by omega
      have hm : (i - 8) % 8 = i % 8 := by omega
      simp only [h, hb, hd, hm, decide_false, Bool.not_false, Bool.true_and, Bool.or_false]
      by_cases hl : i / 8 < s.length + 1
      · rw [if_pos hl, if_pos (by omega)]
        congr 1
        have : s.length - 1 - (i / 8 - 1) = s.length + 1 - 1 - i / 8 := by omega
        rw [this, List.getD_append _ _ _ _ (by omega)]
      · rw [if_neg hl, if_neg (by omega)]

theorem bytes16_getElem? (b : Block) {j : Nat} (h : j < 16) : (bytes16 b)[j]? = some (blockByte b j) := by
  simp [bytes16, h]

theorem bytes16_getD (b : Block) {j : Nat} (h : j < 16) : (bytes16 b).getD j 0 = blockByte b j := by
  simp [List.getD, bytes16_getElem? b h]

/-- Word k of four words in a row. -/
theorem blockWord_append (a b c d : Word) {k : Nat} (hk : k < 4) :
    blockWord (a ++ b ++ c ++ d) k = if k = 0 then a else if k = 1 then b else if k = 2 then c else d := by
  have bits : ∀ i, BitVec.getLsbD (a ++ b ++ c ++ d) i =
      if i < 32 then d.getLsbD i else if i < 64 then c.getLsbD (i - 32)
      else if i < 96 then b.getLsbD (i - 64) else a.getLsbD (i - 96) := by
    intro i
    simp only [BitVec.getLsbD_append]
    split_ifs <;> first | rfl | omega
  ext i hi
  simp only [blockWord, BitVec.getElem_extractLsb', bits]
  interval_cases k <;> simp <;> split_ifs <;> first | omega | simp [hi]

/-- Writing word k and reading word j (R23). -/
theorem blockWord_setBlockWord (b : Block) (k : Nat) (v : Word) {j : Nat} (hj : j < 4) :
    blockWord (setBlockWord b k v) j = if j = k then v else blockWord b j := by
  simp only [setBlockWord]
  rw [blockWord_append _ _ _ _ hj]
  interval_cases j <;> simp

/-- Byte-wise exclusive or with the same string twice. -/
theorem xorBytes_xorBytes (s t : List Byte) (h : s.length ≤ t.length) : xorBytes (xorBytes s t) t = s := by
  induction s generalizing t with
  | nil => simp [xorBytes]
  | cons a s ih =>
    cases t with
    | nil => simp at h
    | cons b t =>
      simp only [xorBytes, List.zipWith_cons_cons, List.cons.injEq]
      exact ⟨by rw [BitVec.xor_assoc, BitVec.xor_self, BitVec.xor_zero], ih t (by simpa using h)⟩

end Sys2Proof.Machine
end

