-- ==== Sys2Proof/Laws/Ghash.lean ====
section
/-! SUPPORT. GHASH: the block loop over a padded string, and what `absorb_buffer` and `derive_j0` do (spec/40_ghash.md R115;
41_gcm_primitives.md R148). -/

namespace Sys2Proof.Machine

variable (h y : Block)

/-! ### The pure block loop -/

@[simp] theorem ghashFrom_nil : ghashFrom h y [] = y := rfl

/-- One block. -/
theorem ghashFrom_block (x : List Byte) (hx : x.length = 16) : ghashFrom h y x = gfmul (y ^^^ blk x) h := by
  simp [ghashFrom, hx, ghashBlocks, List.take_of_length_le (le_of_eq hx)]

/-- The first block of a longer string. -/
theorem ghashFrom_cons_block (x : List Byte) (hx : 16 ≤ x.length) :
    ghashFrom h y x = ghashFrom h (gfmul (y ^^^ blk (x.take 16)) h) (x.drop 16) := by
  have hl : x.length / 16 = (x.drop 16).length / 16 + 1 := by simp; omega
  unfold ghashFrom
  rw [hl, ghashBlocks]

/-- The loop over a concatenation whose first part is whole blocks. -/
theorem ghashFrom_append (x z : List Byte) (hx : x.length % 16 = 0) :
    ghashFrom h y (x ++ z) = ghashFrom h (ghashFrom h y x) z := by
  obtain ⟨k, hk⟩ : ∃ k, x.length = 16 * k := ⟨x.length / 16, by omega⟩
  induction k generalizing x y with
  | zero =>
    obtain rfl : x = [] := List.length_eq_zero_iff.1 (by omega)
    simp
  | succ k ih =>
    rw [ghashFrom_cons_block _ _ (x ++ z) (by simp; omega), ghashFrom_cons_block _ _ x (by omega),
      List.take_append_of_le_length (by omega), List.drop_append_of_le_length (by omega)]
    exact ih _ _ (by simp; omega) (by simp; omega)

/-- `pad128` adds nothing to whole blocks. -/
theorem pad128_of_aligned (x : List Byte) (hx : x.length % 16 = 0) : pad128 x = x := by simp [pad128, hx, zeros]

/-- The padded string is the padded first chunk, then the padded rest. -/
theorem pad128_cons_chunk (x : List Byte) (hx : 0 < x.length) :
    pad128 x = (x.take 16 ++ zeros (16 - (x.take 16).length)) ++ pad128 (x.drop 16) := by
  by_cases h : x.length ≤ 16
  · rw [List.take_of_length_le h, List.drop_of_length_le h, pad128_nil, List.append_nil, pad128]
    congr 2; omega
  · have hl : (x.take 16).length = 16 := by simp; omega
    rw [hl, pad128, pad128, Nat.sub_self, show zeros 0 = [] from rfl, List.append_nil, ← List.append_assoc,
      List.take_append_drop]
    congr 2; simp; omega

/-- `pad128` of a concatenation whose first part is whole blocks. -/
theorem pad128_append (x z : List Byte) (hx : x.length % 16 = 0) : pad128 (x ++ z) = x ++ pad128 z := by
  unfold pad128
  rw [List.append_assoc]
  congr 3
  simp; omega

/-- The loop over a padded string absorbs `padblk` of its first chunk first. -/
theorem ghashFrom_pad128 (x : List Byte) (hx : 0 < x.length) :
    ghashFrom h y (pad128 x) = ghashFrom h (gfmul (y ^^^ padblk (x.take 16)) h) (pad128 (x.drop 16)) := by
  have hl : (x.take 16 ++ zeros (16 - (x.take 16).length)).length = 16 := by simp
  rw [pad128_cons_chunk x hx, ghashFrom_append _ _ _ _ (by rw [hl]), ghashFrom_block _ _ _ hl]
  rfl

/-! ### Chunks of a buffer -/

/-- The first chunk of what is left of a buffer, and the rest. -/
theorem memRead_chunk (s : State) (a n i : Nat) (h : 16 * i < n) :
    (memRead s (a + 16 * i) (n - 16 * i)).take 16 = chunk s a n i ∧
      (memRead s (a + 16 * i) (n - 16 * i)).drop 16 = memRead s (a + 16 * (i + 1)) (n - 16 * (i + 1)) := by
  have hs : n - 16 * i = min 16 (n - 16 * i) + (n - 16 * (i + 1)) := by omega
  have hc : chunk s a n i = memRead s (a + 16 * i) (min 16 (n - 16 * i)) := rfl
  rw [hc]
  by_cases hl : 16 ≤ n - 16 * i
  · have hm : min 16 (n - 16 * i) = 16 := by omega
    rw [hm] at hs ⊢
    rw [hs, memRead_add, List.take_append_of_le_length (by simp), List.drop_append_of_le_length (by simp),
      List.take_of_length_le (by simp), List.drop_of_length_le (by simp)]
    exact ⟨rfl, by rw [List.nil_append, show a + 16 * i + 16 = a + 16 * (i + 1) by omega]⟩
  · have h0 : n - 16 * (i + 1) = 0 := by omega
    rw [List.take_of_length_le (by simp; omega), List.drop_of_length_le (by simp; omega), h0,
      show min 16 (n - 16 * i) = n - 16 * i by omega]
    exact ⟨rfl, rfl⟩

/-! ### What the micro-procedures do -/

theorem absorbChunks_eq (a n : Nat) : ∀ (k i : Nat) (s : State), i + k = nchunks n →
    absorbChunks a n i k s =
      { s with y := ghashFrom s.h s.y (pad128 (memRead s (a + 16 * i) (n - 16 * i))) } := by
  intro k
  induction k with
  | zero =>
    intro i s hi
    have h0 : n - 16 * i = 0 := by unfold nchunks at hi; omega
    simp [absorbChunks, h0, memRead]
  | succ k ih =>
    intro i s hi
    have hi' : 16 * i < n := (lt_nchunks_iff n i).1 (by omega)
    obtain ⟨hc, hr⟩ := memRead_chunk s a n i hi'
    rw [absorbChunks, ih _ _ (by omega), ghashFrom_pad128 _ _ (memRead s (a + 16 * i) (n - 16 * i)) (by simp; omega),
      hc, hr]
    rfl

/-- `absorb_buffer` is the block loop over the zero-padded buffer, from the Y before it (R115). -/
theorem absorbBuffer_eq (a n : Word) (s : State) :
    absorbBuffer a n s = { s with y := ghashFrom s.h s.y (pad128 (buffer s a n)) } := by
  rw [absorbBuffer, absorbChunks_eq _ _ _ _ _ (by omega)]
  simp [buffer]

/-- `derive_j0` (R148): J0 is `J0_of`, and Y the same value unless the IV has 12 bytes. -/
theorem deriveJ0_eq (a n : Word) (s : State) :
    deriveJ0 a n s = { s with
      j0 := j0Of s.h (buffer s a n), y := if n = 12 then s.y else j0Of s.h (buffer s a n) } := by
  unfold deriveJ0 j0Of
  by_cases hn : n = 12
  · subst hn; simp [buffer]
  · have hn' : n.toNat ≠ 12 := fun h => hn (BitVec.eq_of_toNat_eq (by simpa using h))
    have hl : (buffer s a n).length = n.toNat := by simp [buffer]
    have hb : (zeros 8 ++ u64be (8 * n.toNat)).length = 16 := by simp
    rw [if_neg hn, hl, if_neg hn', if_neg hn, absorbBuffer_eq, ghashH, List.append_assoc,
      ghashFrom_append _ _ _ _ (pad128_length_mod _), ghashFrom_block _ _ _ hb]
    rfl

end Sys2Proof.Machine
end

