-- ==== Sys2Proof/Laws/Gctr.lean ====
section
/-! SUPPORT. GCTR: the pure chunk loop, and what the chunk loops of GCTR, GCMENC and GCMDEC do when their Cipher calls answer
and where they stop at one that fails (spec/41_gcm_primitives.md R145, R147; 42_gcm_aead.md R174). -/

namespace Sys2Proof.Machine

/-! ### Counter blocks -/

@[simp] theorem counterBlocks_zero (cb : Block) : counterBlocks cb 0 = [] := rfl

@[simp] theorem counterBlocks_length (cb : Block) (k : Nat) : (counterBlocks cb k).length = k := by simp [counterBlocks]

theorem counterBlocks_succ (cb : Block) (k : Nat) :
    counterBlocks cb (k + 1) = cb :: counterBlocks (inc32 cb) k := by
  simp [counterBlocks, List.range_succ_eq_map, Function.comp_def]

theorem counterBlocks_succ_last (cb : Block) (k : Nat) :
    counterBlocks cb (k + 1) = counterBlocks cb k ++ [inc32^[k] cb] := by
  simp [counterBlocks, List.range_succ]

/-! ### The pure loop -/

variable (E : Block → Block)

/-- The counter block ends incremented once per chunk. -/
theorem gctrChunks_counter : ∀ (k : Nat) (cb : Block) (x : List Byte), (gctrChunks E k cb x).2 = inc32^[k] cb := by
  intro k
  induction k with
  | zero => exact fun _ _ => rfl
  | succ k ih => intro cb x; simp [gctrChunks, ih]

theorem nchunks_drop {x : List Byte} {k : Nat} (h : nchunks x.length = k + 1) : nchunks (x.drop 16).length = k := by
  unfold nchunks at *; simp; omega

/-- The output has the length of the input. -/
theorem gctrChunks_length : ∀ (k : Nat) (cb : Block) (x : List Byte), nchunks x.length = k →
    (gctrChunks E k cb x).1.length = x.length := by
  intro k
  induction k with
  | zero => intro cb x h; simp [gctrChunks]; unfold nchunks at h; omega
  | succ k ih =>
    intro cb x h
    simp only [gctrChunks, List.length_append, ih _ _ (nchunks_drop h)]
    simp; omega

/-- The first k chunks of the output are the output of the first k chunks. -/
theorem gctrChunks_take : ∀ (k n : Nat) (cb : Block) (x : List Byte), k ≤ n → nchunks x.length = n →
    (gctrChunks E n cb x).1.take (16 * k) = (gctrChunks E k cb (x.take (16 * k))).1 := by
  intro k
  induction k with
  | zero => intro n cb x _ _; simp [gctrChunks]
  | succ k ih =>
    intro n cb x hk hn
    obtain ⟨m, rfl⟩ : ∃ m, n = m + 1 := ⟨n - 1, by omega⟩
    have h1 : (x.take (16 * (k + 1))).take 16 = x.take 16 := by rw [List.take_take, show min 16 (16 * (k + 1)) = 16 by omega]
    have h2 : (x.take (16 * (k + 1))).drop 16 = (x.drop 16).take (16 * k) := by
      rw [List.drop_take, show 16 * (k + 1) - 16 = 16 * k by omega]
    have hl := gctrChunks_length E m (inc32 cb) (x.drop 16) (nchunks_drop hn)
    simp only [gctrChunks]
    rw [h1, h2, ← ih m _ _ (by omega) (nchunks_drop hn), List.take_append, List.take_of_length_le (by simp)]
    congr 1
    by_cases h16 : 16 ≤ x.length
    · congr 1; simp; omega
    · have hz : (gctrChunks E m (inc32 cb) (x.drop 16)).1 = [] :=
        List.length_eq_zero_iff.1 (by rw [hl, List.length_drop]; omega)
      simp [hz]

/-- One more chunk at the end. -/
theorem gctrChunks_succ_last : ∀ (k : Nat) (cb : Block) (x : List Byte), 16 * k ≤ x.length → x.length ≤ 16 * (k + 1) →
    (gctrChunks E (k + 1) cb x).1 = (gctrChunks E k cb (x.take (16 * k))).1 ++
      xorBytes (x.drop (16 * k)) (left (x.drop (16 * k)).length (E (inc32^[k] cb))) := by
  intro k
  induction k with
  | zero =>
    intro cb x _ hl
    simp only [gctrChunks, Nat.mul_zero, List.drop_zero, List.nil_append, List.append_nil,
      Function.iterate_zero, id_eq]
    rw [List.take_of_length_le (by omega)]
  | succ k ih =>
    intro cb x hl hl'
    have h1 : (x.take (16 * (k + 1))).take 16 = x.take 16 := by rw [List.take_take, show min 16 (16 * (k + 1)) = 16 by omega]
    have h2 : (x.take (16 * (k + 1))).drop 16 = (x.drop 16).take (16 * k) := by
      rw [List.drop_take, show 16 * (k + 1) - 16 = 16 * k by omega]
    rw [gctrChunks]
    simp only []
    rw [ih (inc32 cb) (x.drop 16) (by simp; omega) (by simp; omega)]
    conv_rhs => rw [gctrChunks]
    simp only []
    rw [h1, h2, List.append_assoc, List.drop_drop, Function.iterate_succ_apply, show 16 + 16 * k = 16 * (k + 1) by omega]

/-! ### One chunk of the machine's loops -/

variable (src dst n i : Nat) (s : State)

/-- The output of chunk i: the chunk at the source, exclusive-or the leftmost keystream bytes. -/
def chunkOutput (s : State) (src n i : Nat) : List Byte :=
  xorBytes (chunk s src n i) (left (chunk s src n i).length (encryptBlock s.cipher s.cb))

@[simp] theorem chunkOutput_length : (chunkOutput s src n i).length = min 16 (n - 16 * i) := by simp [chunkOutput]

theorem gctrChunk_of_answer (h : callFails s.cipher 0 = false) :
    gctrChunk src dst n i s = .running { s with
      mem := Memory.setBytes s.mem (dst + 16 * i) (chunkOutput s src n i), cb := inc32 s.cb
      cipher := afterCalls s.cipher [s.cb] } := by
  unfold gctrChunk
  simp only []
  rw [withCipher_of_answer _ h]
  rfl

theorem gctrChunk_of_fail (h : callFails s.cipher 0 = true) :
    gctrChunk src dst n i s = .raised .ePrim { s with cipher := afterCalls s.cipher [s.cb] } := by
  unfold gctrChunk
  simp only []
  rw [withCipher_of_fail _ h]

theorem gcmencChunk_of_answer (h : callFails s.cipher 0 = false) :
    gcmencChunk i s = .running { s with
      mem := Memory.setBytes s.mem (s.dstaddr.toNat + 16 * i) (chunkOutput s s.srcaddr.toNat s.len.toNat i)
      cb := inc32 s.cb
      cipher := afterCalls s.cipher [s.cb]
      y := gfmul (s.y ^^^ padblk (chunkOutput s s.srcaddr.toNat s.len.toNat i)) s.h } := by
  unfold gcmencChunk
  simp only []
  rw [withCipher_of_answer _ h]
  rfl

theorem gcmencChunk_of_fail (h : callFails s.cipher 0 = true) :
    gcmencChunk i s = .raised .ePrim { s with cipher := afterCalls s.cipher [s.cb] } := by
  unfold gcmencChunk
  simp only []
  rw [withCipher_of_fail _ h]

/-- A loop stops at the first iteration that raises. -/
theorem forChunks_stops {body : Nat → State → Progress} {n k : Nat} {s t u : State} {e : ErrorCode} (hk : k < n)
    (hr : forChunks body 0 k s = .running t) (hs : body k t = .raised e u) : forChunks body 0 n s = .raised e u := by
  obtain ⟨m, rfl⟩ : ∃ m, n = k + (m + 1) := ⟨n - k - 1, by omega⟩
  rw [forChunks_add, hr, andThen_running, forChunks, Nat.zero_add, hs, andThen_raised]

/-! ### The loops when their calls answer -/

/-- Identical or disjoint ranges, on natural numbers (R250). -/
abbrev SeparateRanges (a b n : Nat) : Prop := a = b ∨ a + n ≤ b ∨ b + n ≤ a

theorem separate_of_sameOrDisjoint {a b n : Word} (h : SameOrDisjoint a b n) :
    SeparateRanges a.toNat b.toNat n.toNat := by
  rcases h with h | h | h
  · exact .inl (by rw [h])
  · exact .inr (.inl h)
  · exact .inr (.inr h)

/-- The first k chunks of `gctr_run`: what changes, what does not, and, for identical or disjoint ranges, that the destination
holds the first k chunks of `GCTR_fn`. -/
theorem gctrRun_chunks (k : Nat) (hk : k ≤ nchunks n) (hc : CipherAnswers s k) :
    ∃ t, forChunks (gctrChunk src dst n) 0 k s = .running t ∧
      t = { s with mem := t.mem, cb := inc32^[k] s.cb, cipher := afterCalls s.cipher (counterBlocks s.cb k) } ∧
      (∀ a, a < dst ∨ dst + min (16 * k) n ≤ a → readByte t a = readByte s a) ∧
      (SeparateRanges src dst n → memRead t dst (min (16 * k) n) =
        (gctrChunks (encryptBlock s.cipher) (nchunks n) s.cb (memRead s src n)).1.take (min (16 * k) n)) := by
  induction k with
  | zero => exact ⟨s, rfl, by simp, fun _ _ => rfl, fun _ => by simp [memRead]⟩
  | succ k ih =>
    obtain ⟨t, hr, ht, hout, hdst⟩ := ih (by omega) fun j hj => hc j (by omega)
    have hk' : 16 * k < n := (lt_nchunks_iff n k).1 (by omega)
    have hcb : t.cb = inc32^[k] s.cb := by rw [ht]
    have hE : encryptBlock t.cipher = encryptBlock s.cipher := by rw [ht]; simp
    have hans : callFails t.cipher 0 = false := by rw [ht]; simpa using hc k (by omega)
    have hol : (chunkOutput t src n k).length = min 16 (n - 16 * k) := chunkOutput_length ..
    refine ⟨_, by rw [forChunks_succ_last, hr, andThen_running, Nat.zero_add, gctrChunk_of_answer _ _ _ _ _ hans], ?_, ?_, ?_⟩
    · rw [ht]
      simp [counterBlocks_succ_last, Function.iterate_succ_apply']
    · intro a ha
      rw [← hout a (by omega)]
      exact readByte_congr (Memory.get_setBytes_outside _ _ _ _ (by rw [hol]; omega))
    · intro hsep
      set u : State := { t with
        mem := Memory.setBytes t.mem (dst + 16 * k) (chunkOutput t src n k), cb := inc32 t.cb
        cipher := afterCalls t.cipher [t.cb] } with hu
      have hmin : min (16 * k) n = 16 * k := by omega
      -- the chunks before, and the new one
      have hold : memRead u dst (16 * k) = memRead t dst (16 * k) := memRead_congr fun j hj =>
        readByte_congr (Memory.get_setBytes_outside _ _ _ _ (by omega))
      have hnew : memRead u (dst + 16 * k) (chunkOutput t src n k).length = chunkOutput t src n k :=
        memRead_memWrite _ t _
      -- the source chunk is as it was before the loop
      have hsrc : chunk t src n k = chunk s src n k := by
        refine memRead_congr fun j hj => hout _ ?_
        simp only [chunkAddr, chunkLen] at hj ⊢
        rcases hsep with h | h | h <;> omega
      have hx : (memRead s src n).length = n := by simp
      have hfull := gctrChunks_length (encryptBlock s.cipher) (nchunks n) s.cb (memRead s src n) (by rw [hx])
      have htake : ∀ m, n ≤ m ∨ m = min m n →
          (gctrChunks (encryptBlock s.cipher) (nchunks n) s.cb (memRead s src n)).1.take (min m n) =
          (gctrChunks (encryptBlock s.cipher) (nchunks n) s.cb (memRead s src n)).1.take m := by
        intro m hm
        rcases hm with hm | hm
        · rw [List.take_of_length_le (by omega), List.take_of_length_le (by omega)]
        · rw [← hm]
      rw [show min (16 * (k + 1)) n = 16 * k + (chunkOutput t src n k).length by omega, memRead_add, hold, hnew]
      have hd := hdst hsep
      rw [hmin] at hd
      rw [hd, show 16 * k + (chunkOutput t src n k).length = min (16 * (k + 1)) n by omega, htake _ (by omega),
        gctrChunks_take _ k _ _ _ (by omega) (by rw [hx]), gctrChunks_take _ (k + 1) _ _ _ hk (by rw [hx]),
        gctrChunks_succ_last _ k _ _ (by simp; omega) (by simp)]
      have hlast : ((memRead s src n).take (16 * (k + 1))).drop (16 * k) = chunk s src n k := by
        have ht : (memRead s src n).take (16 * (k + 1)) = memRead s src (min (16 * (k + 1)) n) := by
          simp [memRead, ← List.map_take, List.take_range]
        rw [ht, show min (16 * (k + 1)) n = 16 * k + min 16 (n - 16 * k) by omega, memRead_add,
          List.drop_append_of_le_length (by simp), List.drop_of_length_le (by simp)]
        rfl
      rw [hlast, List.take_take, show min (16 * k) (16 * (k + 1)) = 16 * k by omega, chunkOutput, hsrc, hE, hcb]

/-- GCMENC's loop is `gctr_run`'s with Y going through the bytes written at the destination (R174). -/
theorem gcmenc_chunks (k : Nat) (s : State) (hk : k ≤ nchunks s.len.toNat) (hc : CipherAnswers s k) :
    ∃ t, forChunks (gctrChunk s.srcaddr.toNat s.dstaddr.toNat s.len.toNat) 0 k s = .running t ∧
      forChunks gcmencChunk 0 k s = .running { t with
        y := ghashFrom s.h s.y (pad128 (memRead t s.dstaddr.toNat (min (16 * k) s.len.toNat))) } := by
  induction k with
  | zero => exact ⟨s, rfl, by simp [forChunks, memRead]⟩
  | succ k ih =>
    obtain ⟨t, hr, hy⟩ := ih (by omega) fun j hj => hc j (by omega)
    obtain ⟨t', hr', ht, -, -⟩ := gctrRun_chunks s.srcaddr.toNat s.dstaddr.toNat s.len.toNat s k (by omega)
      fun j hj => hc j (by omega)
    obtain rfl : t = t' := Progress.running.inj (hr.symm.trans hr')
    have hk' : 16 * k < s.len.toNat := (lt_nchunks_iff _ k).1 (by omega)
    have hans : callFails t.cipher 0 = false := by rw [ht]; simpa using hc k (by omega)
    have hsrc : t.srcaddr = s.srcaddr := by rw [ht]
    have hdst : t.dstaddr = s.dstaddr := by rw [ht]
    have hlen : t.len = s.len := by rw [ht]
    have hh : t.h = s.h := by rw [ht]
    refine ⟨_, by rw [forChunks_succ_last, hr, andThen_running, Nat.zero_add, gctrChunk_of_answer _ _ _ _ _ hans], ?_⟩
    rw [forChunks_succ_last, hy, andThen_running, Nat.zero_add, gcmencChunk_of_answer _ _ (by exact hans)]
    set n := s.len.toNat with hn
    set o := chunkOutput t s.srcaddr.toNat n k with ho
    have hout : ∀ y, chunkOutput { t with y := y } t.srcaddr.toNat t.len.toNat k = o := by
      intro y; rw [hsrc, hlen]; rfl
    have hol : o.length = min 16 (n - 16 * k) := chunkOutput_length ..
    have hmin : min (16 * k) n = 16 * k := by omega
    simp only [hout]
    simp only [hdst]
    congr 2
    -- the new Y: the block loop over the bytes before, then the padded new chunk
    have hread : ∀ u : State, u.mem = Memory.setBytes t.mem (s.dstaddr.toNat + 16 * k) o →
        memRead u s.dstaddr.toNat (min (16 * (k + 1)) n) = memRead t s.dstaddr.toNat (16 * k) ++ o := by
      intro u hu
      have hu' : ∀ a m, memRead u a m = memRead (memWrite (s.dstaddr.toNat + 16 * k) o t) a m := fun a m =>
        memRead_congr fun j _ => readByte_congr (by rw [hu]; rfl)
      rw [show min (16 * (k + 1)) n = 16 * k + o.length by omega, memRead_add, hu', hu', memRead_memWrite]
      congr 1
      exact memRead_congr fun j hj => readByte_memWrite_outside _ _ _ _ (by omega)
    rw [hread _ rfl, pad128_append _ _ (by simp), ghashFrom_append _ _ _ _ (by simp),
      ghashFrom_pad128 _ _ o (by omega), List.take_of_length_le (by omega), List.drop_of_length_le (by omega),
      pad128_nil, ghashFrom_nil, hmin, pad128_of_aligned _ (by simp), hh]

/-! ### The loops as folds of one chunk's effect, for every placement of the buffers -/

@[simp] theorem gctrChunksEffect_zero (s : State) : gctrChunksEffect s 0 = s := rfl

theorem gctrChunksEffect_succ (s : State) (k : Nat) :
    gctrChunksEffect s (k + 1) = gctrChunkEffect (gctrChunksEffect s k) k := by simp [gctrChunksEffect, List.range_succ]

@[simp] theorem gcmencChunksEffect_zero (s : State) : gcmencChunksEffect s 0 = s := rfl

theorem gcmencChunksEffect_succ (s : State) (k : Nat) :
    gcmencChunksEffect s (k + 1) = gcmencChunkEffect (gcmencChunksEffect s k) k := by simp [gcmencChunksEffect, List.range_succ]

theorem gctrChunkEffect_frame (s : State) (i : Nat) :
    gctrChunkEffect s i = { s with
      mem := (gctrChunkEffect s i).mem, cb := inc32 s.cb, cipher := afterCalls s.cipher [s.cb] } := rfl

theorem gcmencChunkEffect_frame (s : State) (i : Nat) :
    gcmencChunkEffect s i = { s with
      mem := (gcmencChunkEffect s i).mem, y := (gcmencChunkEffect s i).y, cb := inc32 s.cb
      cipher := afterCalls s.cipher [s.cb] } := rfl

/-- What k chunks of `gctr_run` can change. -/
theorem gctrChunksEffect_frame (s : State) (k : Nat) :
    gctrChunksEffect s k = { s with
      mem := (gctrChunksEffect s k).mem, cb := inc32^[k] s.cb, cipher := afterCalls s.cipher (counterBlocks s.cb k) } := by
  induction k with
  | zero => simp
  | succ k ih =>
    rw [gctrChunksEffect_succ]
    have h := gctrChunkEffect_frame (gctrChunksEffect s k) k
    generalize gctrChunkEffect (gctrChunksEffect s k) k = t at h ⊢
    rw [ih] at h
    exact h.trans (by simp [counterBlocks_succ_last, Function.iterate_succ_apply'])

/-- What k chunks of GCMENC's loop can change. -/
theorem gcmencChunksEffect_frame (s : State) (k : Nat) :
    gcmencChunksEffect s k = { s with
      mem := (gcmencChunksEffect s k).mem, y := (gcmencChunksEffect s k).y, cb := inc32^[k] s.cb
      cipher := afterCalls s.cipher (counterBlocks s.cb k) } := by
  induction k with
  | zero => simp
  | succ k ih =>
    rw [gcmencChunksEffect_succ]
    have h := gcmencChunkEffect_frame (gcmencChunksEffect s k) k
    generalize gcmencChunkEffect (gcmencChunksEffect s k) k = t at h ⊢
    rw [ih] at h
    exact h.trans (by simp [counterBlocks_succ_last, Function.iterate_succ_apply'])

theorem gctrChunk_eq_effect (s : State) (i : Nat) (h : callFails s.cipher 0 = false) :
    gctrChunk s.srcaddr.toNat s.dstaddr.toNat s.len.toNat i s = .running (gctrChunkEffect s i) := by
  rw [gctrChunk_of_answer _ _ _ _ _ h]; rfl

theorem gcmencChunk_eq_effect (s : State) (i : Nat) (h : callFails s.cipher 0 = false) :
    gcmencChunk i s = .running (gcmencChunkEffect s i) := by
  have hread : memRead (gctrChunkEffect s i) (s.dstaddr.toNat + 16 * i) (min 16 (s.len.toNat - 16 * i)) =
      chunkOutput s s.srcaddr.toNat s.len.toNat i := by
    rw [← chunkOutput_length s.srcaddr.toNat s.len.toNat i s]
    exact (memRead_congr fun j _ => readByte_congr rfl).trans (memRead_memWrite _ s _)
  rw [gcmencChunk_of_answer _ _ h]
  simp only [gcmencChunkEffect, hread, padblk, chunkOutput_length]
  rfl

/-- `gctr_run`'s first k chunks, when their calls answer. -/
theorem gctrRun_eq_effect (s : State) (k : Nat) (hc : CipherAnswers s k) :
    forChunks (gctrChunk s.srcaddr.toNat s.dstaddr.toNat s.len.toNat) 0 k s = .running (gctrChunksEffect s k) := by
  induction k with
  | zero => rfl
  | succ k ih =>
    have hf := gctrChunksEffect_frame s k
    have hans : callFails (gctrChunksEffect s k).cipher 0 = false := by rw [hf]; simpa using hc k (by omega)
    have hstep := gctrChunk_eq_effect _ k hans
    rw [show (gctrChunksEffect s k).srcaddr = s.srcaddr by rw [hf], show (gctrChunksEffect s k).dstaddr = s.dstaddr by rw [hf],
      show (gctrChunksEffect s k).len = s.len by rw [hf]] at hstep
    rw [forChunks_succ_last, ih fun j hj => hc j (by omega), andThen_running, Nat.zero_add, hstep, gctrChunksEffect_succ]

/-- GCMENC's first k chunks, when their calls answer. -/
theorem gcmencRun_eq_effect (s : State) (k : Nat) (hc : CipherAnswers s k) :
    forChunks gcmencChunk 0 k s = .running (gcmencChunksEffect s k) := by
  induction k with
  | zero => rfl
  | succ k ih =>
    have hans : callFails (gcmencChunksEffect s k).cipher 0 = false := by
      rw [gcmencChunksEffect_frame s k]; simpa using hc k (by omega)
    rw [forChunks_succ_last, ih fun j hj => hc j (by omega), andThen_running, Nat.zero_add, gcmencChunk_eq_effect _ k hans,
      gcmencChunksEffect_succ]

/-- What the chunks leave in MEM depends on MEM, the buffers, the counter block and the cipher function only. -/
theorem gctrChunksEffect_mem_congr {s t : State} (hm : s.mem = t.mem) (hsrc : s.srcaddr = t.srcaddr)
    (hdst : s.dstaddr = t.dstaddr) (hlen : s.len = t.len) (hcb : s.cb = t.cb)
    (hE : encryptBlock s.cipher = encryptBlock t.cipher) (k : Nat) :
    (gctrChunksEffect s k).mem = (gctrChunksEffect t k).mem := by
  induction k with
  | zero => exact hm
  | succ k ih =>
    have hr : ∀ a n, memRead (gctrChunksEffect s k) a n = memRead (gctrChunksEffect t k) a n := fun a n =>
      memRead_congr fun j _ => readByte_congr (by rw [ih])
    simp only [gctrChunksEffect_succ, gctrChunkEffect]
    rw [hr, ih, gctrChunksEffect_frame s k, gctrChunksEffect_frame t k]
    simp only [encryptBlock_afterCalls, hsrc, hdst, hlen, hcb, hE]

end Sys2Proof.Machine
end

