-- ==== Sys2Proof/Laws/Engine.lean ====
section
/-! SUPPORT. What GCMENC and GCMDEC begin with (spec/42_gcm_aead.md R174, R180). -/

namespace Sys2Proof.Machine

/-- The common beginning when the subkey's Cipher call answers: TAG cleared, H, J0, and Y the hash of the padded AAD. -/
theorem beginMessage_of_answer {s : State} (h : callFails s.cipher 0 = false) :
    beginMessage s = .running { s with
      tag := 0
      h := encryptBlock s.cipher 0
      j0 := j0Of (encryptBlock s.cipher 0) (buffer s s.ivaddr s.ivlen)
      y := ghashFrom (encryptBlock s.cipher 0) 0 (pad128 (buffer s s.aadaddr s.aadlen))
      cipher := afterCalls s.cipher [0] } := by
  unfold beginMessage deriveH
  rw [withCipher_of_answer _ (by exact h), andThen_running]
  simp only []
  rw [deriveJ0_eq, absorbBuffer_eq]
  rfl

/-- And when it fails: TAG is cleared already, H and the rest are as they were (R218). -/
theorem beginMessage_of_fail {s : State} (h : callFails s.cipher 0 = true) :
    beginMessage s = .raised .ePrim { s with tag := 0, cipher := afterCalls s.cipher [0] } := by
  unfold beginMessage deriveH
  rw [withCipher_of_fail _ (by exact h), andThen_raised]

/-- Absorbing the AAD, the text and the length block gives S (R170). -/
theorem ghashS_eq (E : Block → Block) (aad c : List Byte) :
    gfmul (ghashFrom (E 0) (ghashFrom (E 0) 0 (pad128 aad)) (pad128 c) ^^^ lenblock aad.length c.length) (E 0) =
      ghashS E aad c := by
  have hb : (u64be (8 * aad.length) ++ u64be (8 * c.length)).length = 16 := by simp
  unfold ghashS ghashH hashInput
  rw [List.append_assoc (pad128 aad ++ pad128 c), List.append_assoc (pad128 aad),
    ghashFrom_append _ _ _ _ (pad128_length_mod _), ghashFrom_append _ _ _ _ (pad128_length_mod _),
    ghashFrom_block _ _ _ hb]
  rfl

end Sys2Proof.Machine
end

