-- ==== Sys2Proof/Laws/PerInstr.lean ====
section
/-! SUPPORT. Per-instruction lemmas: the fields of each encoding (spec/30_encoding.md R90, R92). -/

namespace Sys2Proof.Laws

/-- The word of `i` has ZERO = 0, the OPC of its row, and ARG = 0 unless `i` is GCMCFG, whose ARG is its tag length. -/
abbrev EncodingFields.Statement (i : Instr) : Prop :=
  i.WellFormed → zeroField (encode i) = 0 ∧ opcField (encode i) = opcodeOf i ∧
    (argField (encode i)).toNat = match i with
      | .gcmcfg t => t
      | .nop => 0
      | .ghinit => 0
      | .ghblk => 0
      | .ghash => 0
      | .hderive => 0
      | .j0derive => 0
      | .inc32 => 0
      | .gctr => 0
      | .gcmenc => 0
      | .gcmdec => 0
      | .sreset => 0

theorem EncodingFields.nop : EncodingFields.Statement .nop := by decide
theorem EncodingFields.ghinit : EncodingFields.Statement .ghinit := by decide
theorem EncodingFields.ghblk : EncodingFields.Statement .ghblk := by decide
theorem EncodingFields.ghash : EncodingFields.Statement .ghash := by decide
theorem EncodingFields.hderive : EncodingFields.Statement .hderive := by decide
theorem EncodingFields.j0derive : EncodingFields.Statement .j0derive := by decide
theorem EncodingFields.inc32 : EncodingFields.Statement .inc32 := by decide
theorem EncodingFields.gctr : EncodingFields.Statement .gctr := by decide
theorem EncodingFields.gcmcfg (t : Nat) : EncodingFields.Statement (.gcmcfg t) := by
  intro h
  have ht : t < 256 := by simpa [Instr.WellFormed, Instr.wf] using h
  clear h
  revert t
  decide +kernel
theorem EncodingFields.gcmenc : EncodingFields.Statement .gcmenc := by decide
theorem EncodingFields.gcmdec : EncodingFields.Statement .gcmdec := by decide
theorem EncodingFields.sreset : EncodingFields.Statement .sreset := by decide

end Sys2Proof.Laws
end

