-- ==== Sys2Proof/Tests/Slice0.lean ====
section
/-! SUPPORT. The model's own tests (expected values from spec/95_test_vectors.md, by vector number, or from the rule named), and
for each statement with hypotheses a witness that meets them. -/

namespace Sys2Proof.Machine

/-! ### Small states -/

/-- The `n`-byte string of a big-endian number. -/
def bytesOf (n v : Nat) : List Byte := (List.range n).map fun j => BitVec.ofNat 8 (v >>> (8 * (n - 1 - j)))

/-- A cipher that answers `E(K, B) = B ^ K` on the listed blocks (95_test_vectors.md section 2, XORK) and draws `fails`. -/
def xork (k : Block) (blocks : List Block) (fails : List Bool) : CipherPort :=
  { key := .k128 k
    known := blocks.map fun b => { key := .k128 k, input := b, output := b ^^^ k }
    fails := fails, calls := [] }

/-- The key of section 2. -/
def testKey : Block := 0x0f0e0d0c0b0a09080706050403020100

/-- Section 1's start state: reset, `MEMSIZE = 0x400`, no Cipher call fails. -/
def start : State :=
  { State.reset with
    memSize := 0x400, cipher := xork testKey [] (List.replicate 8 false) }

/-- The state after a command; every command answers a next state. -/
def after (i : Instr) (s : State) : State :=
  match exec i s with
  | .next t => t
  | .fault _ => s
  | .refused _ => s

/-- The state after one step. -/
def stepped (s : State) : State :=
  match step s with
  | .next t => t
  | .fault _ => s
  | .refused _ => s

/-- `s` with one host access to come. -/
def withAccess (a : HostAccess) (s : State) : State := { s with host := [a] }

theorem exec_after (i : Instr) (s : State) : exec i s = .next (after i s) := by cases i <;> rfl

/-! ### WellFormed -/

/-- R93: the immediate is 8 bits. -/
theorem test_wf_refuses_a_nine_bit_immediate : ¬(Instr.gcmcfg 256).WellFormed := by decide

/-- R94(e): an illegal tag length is a legal encoding. -/
theorem test_wf_takes_gcmcfg_255 : (Instr.gcmcfg 255).WellFormed := by decide

/-! ### Decode: ZERO, ARG, OPC of R92 written out, leftmost first -/

theorem test_decode_nop : decodeWord (0x0000#16 ++ 0x00#8 ++ 0x00#8) = .instr .nop := by decide
theorem test_decode_ghinit : decodeWord (0x0000#16 ++ 0x00#8 ++ 0x01#8) = .instr .ghinit := by decide
theorem test_decode_ghblk : decodeWord (0x0000#16 ++ 0x00#8 ++ 0x02#8) = .instr .ghblk := by decide
theorem test_decode_ghash : decodeWord (0x0000#16 ++ 0x00#8 ++ 0x03#8) = .instr .ghash := by decide
theorem test_decode_hderive : decodeWord (0x0000#16 ++ 0x00#8 ++ 0x10#8) = .instr .hderive := by decide
theorem test_decode_j0derive : decodeWord (0x0000#16 ++ 0x00#8 ++ 0x11#8) = .instr .j0derive := by decide
theorem test_decode_inc32 : decodeWord (0x0000#16 ++ 0x00#8 ++ 0x12#8) = .instr .inc32 := by decide
theorem test_decode_gctr : decodeWord (0x0000#16 ++ 0x00#8 ++ 0x13#8) = .instr .gctr := by decide
theorem test_decode_gcmcfg_12 : decodeWord 0b00000000000000000000110000100000 = .instr (.gcmcfg 12) := by decide
theorem test_decode_gcmenc : decodeWord (0x0000#16 ++ 0x00#8 ++ 0x21#8) = .instr .gcmenc := by decide
theorem test_decode_gcmdec : decodeWord (0x0000#16 ++ 0x00#8 ++ 0x22#8) = .instr .gcmdec := by decide
theorem test_decode_sreset : decodeWord (0x0000#16 ++ 0x00#8 ++ 0x3F#8) = .instr .sreset := by decide

/-- V80, the rows that decode as nothing. -/
theorem test_decode_illegal_words :
    decodeWord 0x00000004 = .rejected .opcodeUnassigned ∧ decodeWord 0x00000101 = .rejected .argNotZero ∧
    decodeWord 0x00010001 = .rejected .zeroFieldNotZero ∧ decodeWord 0x00010C20 = .rejected .zeroFieldNotZero ∧
    decodeWord 0x00000023 = .rejected .opcodeUnassigned ∧ decodeWord 0x0000013F = .rejected .argNotZero ∧
    decodeWord 0x00000040 = .rejected .opcodeUnassigned ∧ decodeWord 0xFFFFFFFF = .rejected .zeroFieldNotZero := by decide

theorem test_decodeTableWord : decodeTableWord 32 0x00000C20 = some (.gcmcfg 12) := by decide

/-- The placed word is what the next step runs: INC32 from reset gives CB = 1 (V30). -/
theorem test_withFetchWord : (stepped (State.reset.withFetchWord 32 0x00000012)).cb = 1 := by decide

/-! ### The host's ports -/

/-- V81: the other 96 bits of H are kept. -/
theorem test_write_h_w3 :
    (stepped (withAccess (.regWrite 0x3C 4 0xca342b2f) { start with h := 0x66e94bd4ef8a2c3b884cfa59ca342b2e })).h =
      0x66e94bd4ef8a2c3b884cfa59ca342b2f := by decide

/-- V81, V82. -/
theorem test_read_cfg_after_reset : (stepped (withAccess (.regRead 0x08 4) State.reset)).reply = .word 0x00000010 := by decide

/-- V81: word 0 holds bytes 0 to 3. -/
theorem test_read_h_w0 :
    (stepped (withAccess (.regRead 0x30 4) { start with h := 0x66e94bd4ef8a2c3b884cfa59ca342b2e })).reply =
      .word 0x66e94bd4 := by decide

/-- R213: E_AUTH is reported as 0x00000052. -/
theorem test_read_status_after_auth :
    (stepped (withAccess (.regRead 0x04 4) { start with status := statusError .eAuth })).reply = .word 0x00000052 := by decide

/-- V80: an illegal word raises E_CMD and clears nothing. -/
theorem test_illegal_command :
    let t := stepped (withAccess (.regWrite 0x00 4 0x00000101) { start with y := 7 })
    t.y = 7 ∧ statusWord t.status = 0x00000042 := by decide

/-- R62: a write, then a read of the same bytes. -/
theorem test_memory_port :
    (stepped { stepped (withAccess (.memWrite 0x3FE [0xAB, 0xCD]) start) with host := [.memRead 0x3FE 2] }).reply =
      .bytes [0xAB, 0xCD] := by decide

/-- The list of written bytes stays sorted and holds one entry per address. -/
theorem test_memory_is_canonical :
    Memory.setBytes [(4, 1), (6, 2)] 5 [8, 9, 10] = [(4, 1), (5, 8), (6, 9), (7, 10)] := by decide

/-! ### The arithmetic -/

/-- V10. -/
theorem test_gfmul_general : gfmul 0x0388dace60b6a392f328c2b971b2fe78 0x66e94bd4ef8a2c3b884cfa59ca342b2e =
    0x5e2ec746917062882c85b0685353deb7 := by decide +kernel

/-- V16: 127 reductions. -/
theorem test_gfmul_reduces : gfmul 1 1 = 0xe6080000000000000000000000000003 := by decide +kernel

/-- V52: 5 bytes of AAD and 20 of text. -/
theorem test_lenblock : lenblock 5 20 = 0x000000000000002800000000000000a0 := by decide

/-! ### The commands -/

/-- V83. -/
theorem test_nop_clears_an_error :
    statusWord (after .nop { start with status := statusError .eAuth }).status = 0x00000001 := by decide

/-- V84: TAGLEN back to 16, STATUS 0, MEM as it was. -/
theorem test_sreset :
    let t := after .sreset { start with tagin := 9, taglen := 12, len := 20, mem := [(0x300, 5)], status := statusOk }
    t.tagin = 0 ∧ t.taglen = 16 ∧ t.len = 0 ∧ t.mem = [(0x300, 5)] ∧ statusWord t.status = 0 := by decide

/-- V21. -/
theorem test_ghinit :
    let t := after .ghinit { start with y := 0x5e2ec746917062882c85b0685353deb7, h := 3, din := 4 }
    t.y = 0 ∧ t.h = 3 ∧ t.din = 4 ∧ statusWord t.status = 1 := by decide

/-- V23: Y, DIN and H each take part. -/
theorem test_ghblk :
    (after .ghblk { start with
      h := 0x66e94bd4ef8a2c3b884cfa59ca342b2e, y := 0x5e2ec746917062882c85b0685353deb7, din := 0x80 }).y =
      0xf38cbb1ad69223dcc3457ae5b6b0f885 := by decide +kernel

/-- The state of V28 to V2E: two blocks at 0x040, Y = ...77. -/
def ghashState (src len : Word) : State :=
  { start with
    h := 0x66e94bd4ef8a2c3b884cfa59ca342b2e, y := 0x77, srcaddr := src, len := len
    mem := Memory.setBytes [] 0x40
      (bytesOf 32 0x0388dace60b6a392f328c2b971b2fe7800000000000000000000000000000080) }

/-- V28: the old Y is ignored. -/
theorem test_ghash_two_blocks :
    (after .ghash (ghashState 0x40 32)).y = 0xf38cbb1ad69223dcc3457ae5b6b0f885 := by decide +kernel

/-- V2E: both errors apply, E_ALIGN wins. -/
theorem test_ghash_align_before_range :
    let t := after .ghash (ghashState 0x3F8 20)
    t.y = 0x77 ∧ statusWord t.status = 0x00000022 := by decide +kernel

/-- The cipher of V37 and V38. -/
def hderiveState (fail : Bool) : State := { start with h := 0x99, cipher := xork testKey [0] [fail] }

/-- V37. -/
theorem test_hderive :
    let t := after .hderive (hderiveState false)
    t.h = testKey ∧ statusWord t.status = 1 ∧ t.cipher.calls = [0] := by decide

/-- V38. -/
theorem test_hderive_fails :
    let t := after .hderive (hderiveState true)
    t.h = 0x99 ∧ statusWord t.status = 0x00000062 := by decide

/-- The state of V40 to V46: `iv` at `a`. -/
def j0State (a : Word) (iv : List Byte) (n : Word) : State :=
  { start with
    h := 0x66e94bd4ef8a2c3b884cfa59ca342b2e, j0 := 5, y := 6, ivaddr := a, ivlen := n
    mem := Memory.setBytes [] a.toNat iv }

/-- V40: Y is not written. -/
theorem test_j0derive_12 :
    let t := after .j0derive (j0State 0x20 (bytesOf 12 0xcafebabefacedbaddecaf888) 12)
    t.j0 = 0xcafebabefacedbaddecaf88800000001 ∧ t.y = 6 := by decide

/-- V44: a partial last chunk. -/
theorem test_j0derive_17 :
    let t := after .j0derive (j0State 0x20 (bytesOf 17 0x000102030405060708090a0b0c0d0e0f10) 17)
    t.j0 = 0xde3a11affcce7942192b2c3410f73e62 ∧ t.y = t.j0 := by decide +kernel

/-- V32: no carry into byte 11. -/
theorem test_inc32_wraps : (after .inc32 { start with cb := 0xffffffffff }).cb = 0xff00000000 := by decide

/-- V35. -/
theorem test_inc32_below_the_wrap :
    (after .inc32 { start with cb := 0x000102030405060708090a0bfffffffe }).cb = 0x000102030405060708090a0bffffffff := by decide

/-- The text of V48. -/
def text20 : List Byte := bytesOf 20 0x000102030405060708090a0b0c0d0e0f10111213

/-- The state of V48, with destination, length and failure draws to choose. -/
def gctrState (dst n : Word) (fails : List Bool) : State :=
  { start with
    cb := 0xffffffff, srcaddr := 0x40, dstaddr := dst, len := n
    cipher := xork testKey [0xffffffff, 0] fails
    mem := Memory.setBytes (Memory.setBytes [] 0x40 text20) 0x80 (List.replicate 20 0xaa) }

/-- V48. -/
theorem test_gctr :
    let t := after .gctr (gctrState 0x80 20 [false, false])
    memRead t 0x80 20 = bytesOf 20 0x0f0f0f0f0f0f0f0f0f0f0f0ff0f0f0f01f1f1f1f ∧ t.cb = 1 ∧
      t.cipher.calls = [0xffffffff, 0] := by decide +kernel

/-- V4A: chunk 1 is not written. -/
theorem test_gctr_fails_at_chunk_1 :
    let t := after .gctr (gctrState 0x80 20 [false, true])
    memRead t 0x80 20 = bytesOf 20 0x0f0f0f0f0f0f0f0f0f0f0f0ff0f0f0f0aaaaaaaa ∧ t.cb = 0 ∧
      statusWord t.status = 0x00000062 := by decide +kernel

/-- V50. -/
theorem test_gcmcfg_12 :
    let t := after (.gcmcfg 12) start
    cfgWord t.taglen = 0x0000000C ∧ statusWord t.status = 1 := by decide

/-- V51: a bit count by mistake. -/
theorem test_gcmcfg_128 :
    let t := after (.gcmcfg 128) start
    cfgWord t.taglen = 0x00000010 ∧ statusWord t.status = 0x00000012 := by decide

/-- The state of V52: IV at 0x000, AAD at 0x100, `text` at `src`, TAGLEN = 12, with the failure draws to choose. -/
def gcmState (text : List Byte) (src dst : Word) (tagin : Block) (fails : List Bool) : State :=
  { start with
    ivaddr := 0, ivlen := 12, aadaddr := 0x100, aadlen := 5, srcaddr := src, dstaddr := dst, len := 20, taglen := 12
    tag := 0x22, tagin := tagin
    cipher := xork testKey
      [0, 0x000102030405060708090a0b00000001, 0x000102030405060708090a0b00000002, 0x000102030405060708090a0b00000003] fails
    mem := Memory.setBytes (Memory.setBytes (Memory.setBytes [] 0 (bytesOf 12 0x000102030405060708090a0b))
      0x100 (bytesOf 5 0xfeedfacede)) src.toNat text }

/-- The ciphertext of V52. -/
def cipher20 : List Byte := bytesOf 20 0x0f0e0d0c0b0a0908070605040f0f0f0d1f1e1d1c

/-- V52. -/
def encState (fails : List Bool) : State := gcmState text20 0x200 0x300 0 fails

/-- V55 and V56: in place. -/
def decState (tagin : Block) (fails : List Bool) : State := gcmState cipher20 0x300 0x300 tagin fails

/-- The TAGIN of V55. -/
def goodTag : Block := 0x96d6a57b3b27ffacccd489d5deadbeef

/-- The TAGIN of V56. -/
def badTag : Block := 0x96d6a57b3b27ffacccd489d4deadbeef

/-- Four draws that answer. -/
def answers : List Bool := [false, false, false, false]

/-- V52. -/
theorem test_gcmenc :
    let t := after .gcmenc (encState answers)
    memRead t 0x300 20 = cipher20 ∧ t.tag = 0x96d6a57b3b27ffacccd489d500000000 ∧
      t.y = 0x99d9aa743428f0a3c3db86da3201fd2a ∧ t.cb = 0x000102030405060708090a0b00000002 := by decide +kernel

/-- V5A: the call of chunk 1 fails. -/
theorem test_gcmenc_fails_at_chunk_1 :
    let t := after .gcmenc (encState [false, false, true])
    memRead t 0x300 16 = bytesOf 16 0x0f0e0d0c0b0a0908070605040f0f0f0d ∧ t.y = 0x31096d52ab3800510e36064d4468218b ∧
      t.tag = 0 ∧ statusWord t.status = 0x00000062 := by decide +kernel

/-- V55: the last 4 bytes of TAGIN are ignored. -/
theorem test_gcmdec_accepts :
    let t := after .gcmdec (decState goodTag answers)
    memRead t 0x300 20 = text20 ∧ t.tag = 0 ∧ t.cb = 0x000102030405060708090a0b00000004 ∧
      statusWord t.status = 1 := by decide +kernel

/-- V56. -/
theorem test_gcmdec_rejects :
    let t := after .gcmdec (decState badTag answers)
    t.mem = (decState badTag answers).mem ∧ t.tag = 0 ∧ statusWord t.status = 0x00000052 ∧
      t.cipher.calls = [0, 0x000102030405060708090a0b00000001] := by decide +kernel

/-! ### Witnesses: states and operands that meet the hypotheses of the statements -/

/-- EveryStepKeepsTheInvariant: a GCMENC waits, and the invariant holds. -/
theorem witness_step_from_the_invariant :
    let s := withAccess (.regWrite 0x00 4 0x00000021) (encState answers)
    s.Inv ∧ step s = .next (stepped s) := ⟨by decide +kernel, rfl⟩

/-- StepRunsTheDecodedCommand, CommandWriteDecodesOrRaisesECmd (legal), ValidationErrorsChangeOnlyStatus (code 1, and 4). -/
theorem witness_command_write :
    (withAccess (.regWrite 0x00 4 0x0000FF20) start).host = .regWrite 0x00 4 0x0000FF20 :: [] ∧
    decodeWord 0x0000FF20 = .instr (.gcmcfg 255) ∧
    (stepped (withAccess (.regWrite 0x00 4 0x0000FF20) start)).status.errcode = 1 ∧
    (stepped (withAccess (.regWrite 0x00 4 0x00010C20) start)).status.errcode = 4 := ⟨rfl, by decide, by decide, by decide⟩

/-- ValidationErrorsChangeOnlyStatus, codes 2 and 3. -/
theorem witness_align_and_range_errors :
    (stepped (withAccess (.regWrite 0x00 4 0x00000003) (ghashState 0x40 20))).status.errcode = 2 ∧
    (stepped (withAccess (.regWrite 0x00 4 0x00000003) (ghashState 0x3F8 16))).status.errcode = 3 := by decide +kernel

/-- CommandWriteDecodesOrRaisesECmd: one illegal word for each of the three tests. -/
theorem witness_illegal_words :
    (0x00010001 : Word).extractLsb' 16 16 ≠ 0 ∧ (0x00000004 : Word).extractLsb' 0 8 = 0x04#8 ∧
    (0x0000013F : Word).extractLsb' 0 8 ≠ 0x20#8 ∧ (0x0000013F : Word).extractLsb' 8 8 ≠ 0 := by decide

/-- DecodeOfEncodeIsTheInstruction at the two ends of ARG, and its words: EncodeOfDecodeIsTheWord. -/
theorem witness_encoding_ends :
    (Instr.gcmcfg 0).WellFormed ∧ (Instr.gcmcfg 255).WellFormed ∧
    decodeWord 0x00000020 = .instr (.gcmcfg 0) ∧ decodeWord 0x0000FF20 = .instr (.gcmcfg 255) := by decide

/-- IdleKeepsAllState. -/
theorem witness_idle : start.host = [] := rfl

/-- RegisterReadReturnsTheMappedWord and ReadOnlyAndReservedWritesAreIgnored: the ends of the map and of its reserved part. -/
theorem witness_register_offsets :
    (∀ off ∈ [0x00, 0x04, 0x08, 0x0C, 0x10, 0x28, 0x2C, 0x30, 0x3C, 0x80, 0x8C, 0x90, 0x9C, 0xA0, 0xFC],
      off % 4 = 0 ∧ off ≤ 0xFC ∧ ∃ s : State, s.host = .regRead off 4 :: []) ∧
    ∀ off ∈ [0x04, 0x08, 0x0C, 0x2C, 0x80, 0x8C, 0xA0, 0xFC], off % 4 = 0 ∧ off ≤ 0xFC ∧
      (off = 0x04 ∨ off = 0x08 ∨ off = 0x0C ∨ off = 0x2C ∨ (0x80 ≤ off ∧ off ≤ 0x8C) ∨ 0xA0 ≤ off) ∧
      ∃ s : State, s.host = .regWrite off 4 0xFFFFFFFF :: [] := by
  refine ⟨fun off h => ⟨?_, ?_, withAccess (.regRead off 4) start, rfl⟩,
    fun off h => ⟨?_, ?_, ?_, withAccess (.regWrite off 4 0xFFFFFFFF) start, rfl⟩⟩ <;> revert off <;> decide

/-- DescriptorWriteReplacesTheRegister and DataWordWriteReplacesThatWordOnly: the first and the last of each kind. -/
theorem witness_register_writes :
    (withAccess (.regWrite 0x10 4 7) start).host = .regWrite 0x10 4 7 :: [] ∧
    (withAccess (.regWrite 0x28 4 7) start).host = .regWrite 0x28 4 7 :: [] ∧
    (withAccess (.regWrite 0x30 4 7) start).host = .regWrite (0x30 + 4 * 0) 4 7 :: [] ∧
    (withAccess (.regWrite 0x9C 4 7) start).host = .regWrite (0x90 + 4 * 3) 4 7 :: [] := ⟨rfl, rfl, rfl, rfl⟩

/-- NonTransactionsAreRefused: a narrow, a misaligned and an outside register access; an empty and an outside memory access. -/
theorem witness_non_transactions :
    step (withAccess (.regRead 0x04 2) start) = .refused .notARegisterTransaction ∧
    step (withAccess (.regRead 0x06 4) start) = .refused .notARegisterTransaction ∧
    step (withAccess (.regWrite 0x100 4 1) start) = .refused .notARegisterTransaction ∧
    step (withAccess (.memRead 0x10 0) start) = .refused .notAMemoryTransaction ∧
    step (withAccess (.memRead 0x3FF 2) start) = .refused .notAMemoryTransaction ∧
    step (withAccess (.memWrite 0x400 [1]) start) = .refused .notAMemoryTransaction := ⟨rfl, rfl, rfl, rfl, rfl, rfl⟩

/-- MemoryPortReadReturnsTheBytes, MemoryPortWriteStoresTheBytes: the last two bytes of MEM. -/
theorem witness_memory_port :
    (withAccess (.memRead 0x3FE 2) start).host = .memRead 0x3FE 2 :: [] ∧ 1 ≤ 2 ∧ 0x3FE + 2 ≤ start.memSize ∧
    (withAccess (.memWrite 0x3FE [1, 2]) start).host = .memWrite 0x3FE [1, 2] :: [] ∧ [1, 2] ≠ ([] : List Byte) :=
  ⟨rfl, by decide, by decide, rfl, by decide⟩

/-- LoadKeyChangesOnlyTheExternalKey. -/
theorem witness_load_key : (withAccess (.loadKey (.k192 1)) start).host = .loadKey (.k192 1) :: [] := rfl

/-- GhashHashesTheSourceBuffer and GhashAbsorbsBlockAfterBlock: each clause, at the last valid range and one past it. -/
theorem witness_ghash :
    (ghashState 0x3F0 17).len.toNat % 16 ≠ 0 ∧
    ((ghashState 0x3F1 16).len.toNat % 16 = 0 ∧ ¬ValidRange 0x400 0x3F1 16) ∧
    ((ghashState 0x3F0 16).len.toNat % 16 = 0 ∧ ValidRange (ghashState 0x3F0 16).memSize 0x3F0 16) ∧
    ValidRange 0x400 0xFFFFFFFF 0 := by decide

/-- HderiveEncryptsTheZeroBlock: both draws. -/
theorem witness_hderive :
    callFails (hderiveState false).cipher 0 = false ∧ callFails (hderiveState true).cipher 0 = true := by decide

/-- J0deriveDerivesThePreCounterBlock: both clauses, at the edge of MEM, and both IV forms. -/
theorem witness_j0derive :
    (¬ValidRange (j0State 0x3F5 [] 12).memSize (j0State 0x3F5 [] 12).ivaddr 12) ∧
    ValidRange (j0State 0x3F4 [] 12).memSize (j0State 0x3F4 [] 12).ivaddr 12 ∧
    ValidRange (j0State 0xFFFFFFFF [] 0).memSize (j0State 0xFFFFFFFF [] 0).ivaddr 0 := by decide

/-- GctrTransformsTheBuffer and GctrRunsChunkByChunkAndStopsAtAFailingCall: disjoint, in place, out of range, no text, and a
failing draw. -/
theorem witness_gctr :
    let s := gctrState 0x80 20 [false, false]
    let t := gctrState 0x40 20 [false, true]
    (ValidRange s.memSize s.srcaddr s.len ∧ ValidRange s.memSize s.dstaddr s.len ∧ CipherAnswers s (nchunks s.len.toNat) ∧
      nchunks s.len.toNat = 2 ∧ SameOrDisjoint s.srcaddr s.dstaddr s.len) ∧
    (ValidRange t.memSize t.srcaddr t.len ∧ ValidRange t.memSize t.dstaddr t.len ∧ CipherAnswers t 1 ∧
      1 < nchunks t.len.toNat ∧ callFails t.cipher 1 = true ∧ SameOrDisjoint t.srcaddr t.dstaddr t.len) ∧
    ¬ValidRange 0x400 (gctrState 0x3F0 20 []).dstaddr 20 ∧ (gctrState 0x9999 0 []).len = 0 := by decide +kernel

/-- GcmcfgStoresALegalTagLength: a value of each clause, at the ends. -/
theorem witness_gcmcfg :
    4 < 256 ∧ 4 ∈ [16, 15, 14, 13, 12, 8, 4] ∧ 16 ∈ [16, 15, 14, 13, 12, 8, 4] ∧
    0 ∉ [16, 15, 14, 13, 12, 8, 4] ∧ 17 ∉ [16, 15, 14, 13, 12, 8, 4] ∧ 255 < 256 := by decide

/-- InvalidBufferRaisesERange: only the destination is invalid (V58). -/
theorem witness_invalid_destination :
    let s := gcmState text20 0x200 0x3F0 0 answers
    ¬BuffersValid s ∧ ValidRange s.memSize s.srcaddr s.len := by decide +kernel

/-- GcmencEncryptsAndTags. -/
theorem witness_gcmenc :
    let s := encState answers
    BuffersValid s ∧ nchunks s.len.toNat + 2 = 4 ∧ CipherAnswers s 4 ∧ SameOrDisjoint s.srcaddr s.dstaddr s.len := by decide +kernel

/-- GcmdecVerifiesThenDecrypts: both columns. -/
theorem witness_gcmdec :
    (let s := decState goodTag answers
     BuffersValid s ∧ CipherAnswers s 4 ∧ SameOrDisjoint s.srcaddr s.dstaddr s.len ∧
      gcmDecrypt (encryptBlock s.cipher) s.taglen.toNat (memRead s 0 12) (memRead s 0x100 5) (memRead s 0x300 20)
        (left s.taglen.toNat s.tagin) = some text20) ∧
    (let s := decState badTag answers
     BuffersValid s ∧ CipherAnswers s 2 ∧
      gcmDecrypt (encryptBlock s.cipher) s.taglen.toNat (memRead s 0 12) (memRead s 0x100 5) (memRead s 0x300 20)
        (left s.taglen.toNat s.tagin) = none) := by decide +kernel

/-- Partly overlapping buffers, as in V4C: XORK with K = 0 (H = 0, keystream = CB), an IV of 12 zero bytes, no AAD, the bytes 00 to 2f
at 0x40, SRCADDR = 0x40, DSTADDR = 0x48, LEN = 32. -/
def overlapState (tagin : Block) (fails : List Bool) : State :=
  { start with
    ivlen := 12, srcaddr := 0x40, dstaddr := 0x48, len := 32, tagin := tagin, cipher := xork 0 [0, 1, 2, 3] fails
    mem := Memory.setBytes (Memory.setBytes [] 0 (zeros 12)) 0x40 ((List.range 48).map (BitVec.ofNat 8)) }

/-- MEM from 0x40 after both chunks, by hand from R174: CB = 2, then 3; chunk 1 is read after chunk 0 has overwritten 0x50 to 0x57. -/
def overlapResult : List Byte := bytesOf 48
  0x0001020304050607000102030405060708090a0b0c0d0e0d08090a0b0c0d0e0d18191a1b1c1d1e1c28292a2b2c2d2e2f

/-- GcmencEncryptsAndTags and GcmencStopsAtTheFailingCall with a partial overlap: the hypotheses, and what R174 gives (H = 0, so Y = 0
and TAG = E(J0) = 1). -/
theorem witness_gcmenc_partial_overlap :
    let s := overlapState 0 answers
    let u := overlapState 0 [false, false, true]
    BuffersValid s ∧ CipherAnswers s (nchunks s.len.toNat + 2) ∧ ¬SameOrDisjoint s.srcaddr s.dstaddr s.len ∧
    BuffersValid u ∧ CipherAnswers u 2 ∧ callFails u.cipher 2 = true ∧
    memRead (after .gcmenc s) 0x40 48 = overlapResult ∧ (after .gcmenc s).tag = 1 ∧
    (after .gcmenc s).mem = (gcmencChunksEffect (gcmencLoopStart s) 2).mem := by decide +kernel

/-- GcmdecVerifiesThenDecrypts and GcmdecStopsAtTheFailingCall with a partial overlap: the tag E(J0) = 1 of the original bytes is
accepted (R250), and pass 2 leaves what the same loop leaves. -/
theorem witness_gcmdec_partial_overlap :
    let s := overlapState 1 answers
    let u := overlapState 1 [false, false, false, true]
    BuffersValid s ∧ CipherAnswers s (nchunks s.len.toNat + 2) ∧ ¬SameOrDisjoint s.srcaddr s.dstaddr s.len ∧
    (gcmDecrypt (encryptBlock s.cipher) s.taglen.toNat (memRead s 0 12) [] (memRead s 0x40 32) (left 16 s.tagin)).isSome ∧
    BuffersValid u ∧ CipherAnswers u 3 ∧ callFails u.cipher 3 = true ∧
    statusWord (after .gcmdec s).status = 1 ∧ memRead (after .gcmdec s) 0x40 48 = overlapResult := by decide +kernel

/-- V4C: the chunk effects the statements are written with. -/
theorem test_chunk_effects_partial_overlap :
    memRead (gctrChunksEffect { overlapState 0 [] with cb := 0 } 2) 0x40 48 = bytesOf 48
      0x0001020304050607000102030405060708090a0b0c0d0e0f08090a0b0c0d0e0f18191a1b1c1d1e1e28292a2b2c2d2e2f := by decide +kernel

/-- GcmencStopsAtTheFailingCall: the subkey's call (k = 0), the first chunk's (1) and the tag's (3 = n + 1). -/
theorem witness_gcmenc_stops :
    BuffersValid (encState []) ∧
    callFails (encState [true]).cipher 0 = true ∧
    (CipherAnswers (encState [false, true]) 1 ∧ callFails (encState [false, true]).cipher 1 = true) ∧
    (CipherAnswers (encState [false, false, false, true]) 3 ∧
      callFails (encState [false, false, false, true]).cipher 3 = true) := by decide +kernel

/-- GcmdecStopsAtTheFailingCall: k = 0, 1, 2 and n + 1 = 3; the tags match. -/
theorem witness_gcmdec_stops :
    BuffersValid (decState goodTag []) ∧
    callFails (decState goodTag [true]).cipher 0 = true ∧
    (CipherAnswers (decState goodTag [false, true]) 1 ∧ callFails (decState goodTag [false, true]).cipher 1 = true) ∧
    (CipherAnswers (decState goodTag [false, false, true]) 2 ∧
      callFails (decState goodTag [false, false, true]).cipher 2 = true) ∧
    (CipherAnswers (decState goodTag [false, false, false, true]) 3 ∧
      callFails (decState goodTag [false, false, false, true]).cipher 3 = true) := by decide +kernel

/-- AuthErrorReleasesNothing, AuthErrorDoesNotTellWhereTheTagsDiffer: two mismatching tags. -/
theorem witness_auth_error :
    exec .gcmdec (decState badTag answers) = .next (after .gcmdec (decState badTag answers)) ∧
    (after .gcmdec (decState badTag answers)).status.errcode = 5 ∧
    (after .gcmdec { decState badTag answers with tagin := 0 }).status.errcode = 5 := ⟨rfl, by decide +kernel, by decide +kernel⟩

/-- OnlyTheLeftmostTagBytesDecide: an accepted message; a TAGIN that agrees on 12 bytes, and one that does not. -/
theorem witness_leftmost_tag_bytes :
    LegalTagLength (decState goodTag answers).taglen.toNat ∧
    (after .gcmdec (decState goodTag answers)).status = { ok := true, err := false, errcode := 0 } ∧
    left 12 (0x96d6a57b3b27ffacccd489d500000000 : Block) = left 12 goodTag ∧ left 12 badTag ≠ left 12 goodTag := by decide +kernel

/-- OnlyTheDestinationRangeIsWritten: a command with no output, and an address on either side of an output. -/
theorem witness_outside_the_destination :
    Instr.ghash ∉ [Instr.gctr, Instr.gcmenc, Instr.gcmdec] ∧
    ¬InRange 0x2FF (encState answers).dstaddr (encState answers).len ∧
    ¬InRange 0x314 (encState answers).dstaddr (encState answers).len := by decide

/-- CommandsLeaveTheOperandRegisters, GhashUnitIsPure: a command of each clause. -/
theorem witness_frames :
    Instr.gcmenc ≠ .sreset ∧ Instr.gcmcfg 4 ≠ .sreset ∧ (∀ x, Instr.gctr ≠ .gcmcfg x) ∧
    Instr.ghblk ∈ [Instr.ghinit, Instr.ghblk] := ⟨by decide, by decide, fun _ => by simp, by decide⟩

/-- WorkingValuesDoNotReachTheNextMessage: a GCMENC that ends well, a GCMDEC that ends in E_AUTH. -/
theorem witness_working_values :
    (after .gcmenc (encState answers)).status.err = false ∧
    (after .gcmdec (decState badTag answers)).status.errcode = 5 := by decide +kernel

/-- PrimErrorIsTheFirstFailingCall. -/
theorem witness_prim_error : (after .gcmenc (encState [false, false, true])).status.errcode = 6 := by decide +kernel

/-- CipherCallsAreCounted: GCMENC, and both columns of GCMDEC. -/
theorem witness_cipher_calls :
    (after .gcmenc (encState answers)).status.errcode ∉ [1#4, 2#4, 3#4, 6#4] ∧
    (after .gcmdec (decState goodTag answers)).status.errcode = 0 ∧
    (after .gcmdec (decState badTag answers)).status.errcode = 5 := by decide +kernel

/-- The pure functions' ranges: R149's lengths, R172's and R183's tag lengths, R10's lengths. -/
theorem witness_pure_functions :
    2 ^ 32 - 1 < 2 ^ 32 ∧ 4 ∈ [4, 8, 12, 13, 14, 15, 16] ∧ 16 ∈ [4, 8, 12, 13, 14, 15, 16] ∧
    LegalTagLength 4 ∧ (zeros 16).length = 16 := by decide

/-- GfmulFieldLaws: a block with each last bit. -/
theorem witness_last_bits : (2 : Block).getLsbD 0 = false ∧ (3 : Block).getLsbD 0 = true := by decide

end Sys2Proof.Machine
end

section
/-! ### The invariant: every micro-step, command and host access keeps it (R8, R25, R26, R32, R60) -/

namespace Sys2Proof.Machine

/-- Whatever the outcome, a next state meets the invariant. -/
def KeepsInv (o : Host.Outcome State Fault Refusal) : Prop := ∀ t, o = .next t → t.Inv

/-- The state the micro-steps have reached meets the invariant, whether they go on or have raised. -/
abbrev Progress.KeepsInv (p : Progress) : Prop := p.Holds State.Inv fun _ => State.Inv

/-- The same, and the micro-steps that go on know `P` of the state. -/
abbrev Progress.KeepsInvWith (P : State → Prop) (p : Progress) : Prop :=
  p.Holds (fun s => s.Inv ∧ P s) fun _ => State.Inv

/-- The range the text is written to is valid: what the chunk loops need to keep MEM inside MEMSIZE (R63). -/
abbrev State.DestinationValid (s : State) : Prop := ValidRange s.memSize s.dstaddr s.len

theorem keepsInv_next {t : State} (h : t.Inv) : KeepsInv (.next t) := fun _ ht => Host.Outcome.next.inj ht ▸ h

/-- An access that is refused unless it is a transaction (R29(a), R62). -/
theorem keepsInv_ite_refused {c : Prop} [Decidable c] {o : Host.Outcome State Fault Refusal} {r : Refusal}
    (ho : c → KeepsInv o) : KeepsInv (if c then o else .refused r) := by
  split_ifs with hc
  · exact ho hc
  · exact fun _ ht => nomatch ht

/-! #### Updates -/

theorem statusOk_legal : statusOk.Legal := by decide

theorem statusClear_legal : statusClear.Legal := by decide

theorem statusError_legal (e : ErrorCode) : (statusError e).Legal := by cases e <;> decide

theorem inv_doneOk {s : State} (h : s.Inv) : (doneOk s).Inv := by
  obtain ⟨htag, -, hmem⟩ := h
  exact ⟨htag, statusOk_legal, hmem⟩

theorem inv_raise {s : State} (e : ErrorCode) (h : s.Inv) : (raise e s).Inv := by
  obtain ⟨htag, -, hmem⟩ := h
  exact ⟨htag, statusError_legal e, hmem⟩

theorem inv_resetRegisters {s : State} (h : s.Inv) : (resetRegisters s).Inv := by
  obtain ⟨-, -, hmem⟩ := h
  have htag : LegalTagLength (16 : BitVec 5).toNat := by decide
  exact ⟨htag, statusClear_legal, hmem⟩

theorem inv_taglen {s : State} {t : Nat} (h : s.Inv) (ht : LegalTagLength t) :
    State.Inv { s with taglen := BitVec.ofNat 5 t } := by
  obtain ⟨-, hrest⟩ := h
  have hlt : ∀ n, LegalTagLength n → n < 2 ^ 5 := by decide
  have hval : (BitVec.ofNat 5 t).toNat = t := Nat.mod_eq_of_lt (hlt t ht)
  exact ⟨hval.symm ▸ ht, hrest⟩

theorem inv_setDesc (r : DescReg) (v : Word) {s : State} (h : s.Inv) : (setDesc r v s).Inv := by cases r <;> exact h

/-- Bytes written inside MEMSIZE keep the invariant; writing none asks nothing of the address. -/
theorem inv_memWrite {s : State} {a : Nat} {data : List Byte} (h : s.Inv)
    (hin : 0 < data.length → a + data.length ≤ s.memSize) : (memWrite a data s).Inv := by
  obtain ⟨htag, hst, hwf, hlt, hsize⟩ := h
  refine ⟨htag, hst, Memory.wf_setBytes data s.mem a hwf, fun c hc => ?_, hsize⟩
  rcases Memory.mem_setBytes data s.mem a hc with hnew | hold
  · have := hin (by omega)
    simp only [memWrite_frame]
    omega
  · exact hlt c hold

/-- Chunk i of a valid destination: its bytes lie inside MEMSIZE (R66). -/
theorem inv_memWrite_chunk {s : State} {dst n : Word} {i : Nat} {data : List Byte} (h : s.Inv)
    (hd : ValidRange s.memSize dst n) (hl : data.length = min 16 (n.toNat - 16 * i)) :
    (memWrite (chunkAddr dst.toNat i) data s).Inv := by
  refine inv_memWrite h fun hpos => ?_
  unfold chunkAddr
  rcases hd with rfl | hd
  · have hzero : (0 : Word).toNat = 0 := rfl
    omega
  · omega

/-! #### Micro-procedures -/

/-- A command's end keeps the invariant, by `done_ok` and by `raise` (R211, R212). -/
theorem inv_finish {p : Progress} (hp : p.KeepsInv) : p.finish.Inv := by
  rcases finish_of_holds hp with ⟨s, hs, heq⟩ | ⟨e, s, hs, heq⟩
  · exact heq ▸ inv_doneOk hs
  · exact heq ▸ inv_raise e hs

theorem requireRange_keepsInv {a n : Word} {s : State} (h : s.Inv) :
    (requireRange a n s).KeepsInvWith fun t => t = s ∧ ValidRange s.memSize a n := by
  by_cases hv : ValidRange s.memSize a n
  · rw [requireRange_of_valid hv]; exact ⟨h, rfl, hv⟩
  · rw [requireRange_of_invalid hv]; exact h

theorem checkBuffers_keepsInv {s : State} (h : s.Inv) : (checkBuffers s).KeepsInvWith State.DestinationValid := by
  by_cases hv : BuffersValid s
  · obtain ⟨-, -, -, hdst⟩ := id hv
    rw [checkBuffers_of_valid hv]; exact ⟨h, hdst⟩
  · rw [checkBuffers_of_invalid hv]; exact h

theorem inv_absorbBuffer (a n : Word) {s : State} (h : s.Inv) : (absorbBuffer a n s).Inv := by
  rw [absorbBuffer_eq]; exact h

theorem inv_deriveJ0 (a n : Word) {s : State} (h : s.Inv) : (deriveJ0 a n s).Inv := by
  rw [deriveJ0_eq]; exact h

theorem deriveH_keepsInv {s : State} (h : s.Inv) : (deriveH s).KeepsInv := holds_withCipher (fun _ => h) fun _ => h

theorem beginMessage_keepsInv {s : State} (h : s.Inv) (hd : s.DestinationValid) :
    (beginMessage s).KeepsInvWith State.DestinationValid := by
  cases hc : callFails s.cipher 0 with
  | true => rw [beginMessage_of_fail hc]; exact h
  | false => rw [beginMessage_of_answer hc]; exact ⟨h, hd⟩

theorem withFullTag_keepsInv {s : State} {next : Block → State → Progress} (h : s.Inv)
    (hn : ∀ full cb cipher, (next full { s with cb := cb, cipher := cipher }).KeepsInv) : (withFullTag s next).KeepsInv := by
  unfold withFullTag
  exact holds_withCipher (fun _ => h) fun _ => hn _ _ _

/-- A loop whose iterations keep the invariant together with `P`. -/
theorem forChunks_keepsInv {P : State → Prop} {body : Nat → State → Progress}
    (hb : ∀ i s, s.Inv → P s → (body i s).KeepsInvWith P) (k : Nat) {s : State} (h : s.Inv) (hP : P s) :
    (forChunks body 0 k s).KeepsInv :=
  holds_mono (holds_forChunks (I := fun _ t => t.Inv ∧ P t) (fun i t ⟨ht, hPt⟩ => hb i t ht hPt) k 0 s ⟨h, hP⟩)
    (fun _ ht => ht.1) fun _ _ ht => ht

theorem gctrRun_keepsInv {src dst n : Word} {s : State} (h : s.Inv) (hd : ValidRange s.memSize dst n) :
    (gctrRun src dst n s).KeepsInv := by
  refine forChunks_keepsInv (P := fun t => ValidRange t.memSize dst n) (fun i t ht hdt => ?_) _ h hd
  cases hc : callFails t.cipher 0 with
  | true => rw [gctrChunk_of_fail _ _ _ _ _ hc]; exact ht
  | false =>
    rw [gctrChunk_of_answer _ _ _ _ _ hc]
    exact ⟨inv_memWrite_chunk ht hdt (chunkOutput_length ..), hdt⟩

theorem gcmencLoop_keepsInv (k : Nat) {s : State} (h : s.Inv) (hd : s.DestinationValid) :
    (forChunks gcmencChunk 0 k s).KeepsInv := by
  refine forChunks_keepsInv (P := State.DestinationValid) (fun i t ht hdt => ?_) k h hd
  cases hc : callFails t.cipher 0 with
  | true => rw [gcmencChunk_of_fail _ _ hc]; exact ht
  | false =>
    rw [gcmencChunk_of_answer _ _ hc]
    exact ⟨inv_memWrite_chunk ht hdt (chunkOutput_length ..), hdt⟩

/-! #### Commands -/

theorem ghashSteps_keepsInv {s : State} (h : s.Inv) : (ghashSteps s).KeepsInv := by
  unfold ghashSteps
  split_ifs
  · exact h
  · exact holds_andThen (requireRange_keepsInv h) fun t ht => inv_absorbBuffer _ _ ht.1

theorem j0deriveSteps_keepsInv {s : State} (h : s.Inv) : (j0deriveSteps s).KeepsInv :=
  holds_andThen (requireRange_keepsInv h) fun _ ht => inv_deriveJ0 _ _ ht.1

theorem gctrSteps_keepsInv {s : State} (h : s.Inv) : (gctrSteps s).KeepsInv := by
  refine holds_andThen (requireRange_keepsInv h) fun t ⟨ht, _⟩ => ?_
  refine holds_andThen (requireRange_keepsInv ht) fun u ⟨_, hu, hd⟩ => ?_
  subst hu
  exact gctrRun_keepsInv ht hd

theorem gcmcfgSteps_keepsInv (t : Nat) {s : State} (h : s.Inv) : (gcmcfgSteps t s).KeepsInv := by
  unfold gcmcfgSteps
  split_ifs with ht
  · exact inv_taglen h ht
  · exact h

theorem gcmencSteps_keepsInv {s : State} (h : s.Inv) : (gcmencSteps s).KeepsInv := by
  refine holds_andThen (checkBuffers_keepsInv h) fun t ⟨ht, hdt⟩ => ?_
  refine holds_andThen (beginMessage_keepsInv ht hdt) fun u ⟨hu, hdu⟩ => ?_
  refine holds_andThen (gcmencLoop_keepsInv _ (by exact hu) hdu) fun v hv => ?_
  exact withFullTag_keepsInv hv fun _ _ _ => hv

theorem gcmdecSteps_keepsInv {s : State} (h : s.Inv) : (gcmdecSteps s).KeepsInv := by
  refine holds_andThen (checkBuffers_keepsInv h) fun t ⟨ht, hdt⟩ => ?_
  refine holds_andThen (beginMessage_keepsInv ht hdt) fun u ⟨hu, hdu⟩ => ?_
  rw [absorbBuffer_eq]
  refine withFullTag_keepsInv hu fun full cb cipher => ?_
  unfold requireTag
  split_ifs
  · exact hu
  · exact gctrRun_keepsInv (by exact hu) hdu

/-- Every command keeps the invariant. -/
theorem exec_keepsInv (i : Instr) {s : State} (h : s.Inv) : KeepsInv (exec i s) := by
  cases i with
  | nop => exact keepsInv_next (inv_doneOk h)
  | ghinit => exact keepsInv_next (inv_doneOk h)
  | ghblk => exact keepsInv_next (inv_doneOk h)
  | ghash => exact keepsInv_next (inv_finish (ghashSteps_keepsInv h))
  | hderive => exact keepsInv_next (inv_finish (deriveH_keepsInv h))
  | j0derive => exact keepsInv_next (inv_finish (j0deriveSteps_keepsInv h))
  | inc32 => exact keepsInv_next (inv_doneOk h)
  | gctr => exact keepsInv_next (inv_finish (gctrSteps_keepsInv h))
  | gcmcfg t => exact keepsInv_next (inv_finish (gcmcfgSteps_keepsInv t h))
  | gcmenc => exact keepsInv_next (inv_finish (gcmencSteps_keepsInv h))
  | gcmdec => exact keepsInv_next (inv_finish (gcmdecSteps_keepsInv h))
  | sreset => exact keepsInv_next (inv_resetRegisters h)

/-! #### Host accesses -/

/-- A CMD write keeps the invariant, whether the word decodes or raises E_CMD (R91). -/
theorem command_keepsInv (w : Word) {s : State} (h : s.Inv) : KeepsInv (command w s) := by
  unfold command
  split
  · exact exec_keepsInv _ h
  · exact keepsInv_next (inv_raise .eCmd h)

theorem regWriteWord_keepsInv (v : Word) (r : RegWord) {s : State} (h : s.Inv) : KeepsInv (regWriteWord v s r) := by
  cases r with
  | cmd => exact command_keepsInv v h
  | status => exact keepsInv_next h
  | cfg => exact keepsInv_next h
  | reserved => exact keepsInv_next h
  | desc r => exact keepsInv_next (inv_setDesc r v h)
  | data r k => cases r <;> exact keepsInv_next h

theorem hostAccess_keepsInv (a : HostAccess) {s : State} (h : s.Inv) : KeepsInv (hostAccess a s) := by
  cases a with
  | regRead off bytes => exact keepsInv_ite_refused fun _ => keepsInv_next h
  | regWrite off bytes v => exact keepsInv_ite_refused fun _ => regWriteWord_keepsInv v _ h
  | memRead addr n => exact keepsInv_ite_refused fun _ => keepsInv_next h
  | memWrite addr data => exact keepsInv_ite_refused fun ht => keepsInv_next (inv_memWrite h fun _ => ht.2)
  | loadKey k => exact keepsInv_next h

theorem step_keepsInv {s : State} (h : s.Inv) : KeepsInv (step s) := by
  unfold step
  split
  · exact keepsInv_next h
  · exact hostAccess_keepsInv _ h

/-- Settles O3: each micro-step keeps the invariant, a chunk's write because its destination range was checked first; so
each command and each host access does. -/
theorem everyStepKeepsTheInvariant : Obligations.EveryStepKeepsTheInvariant :=
  fun _ t hs ht => step_keepsInv hs t ht

/-- Settles O2: the reset values, and the open MEMSIZE is a 32-bit number plus one (log 4). -/
theorem resetMeetsTheInvariant : Obligations.ResetMeetsTheInvariant := by
  have hsize : Config.memSize ≤ 2 ^ 32 := Config.memSizeLess1.isLt
  exact ⟨by decide, by decide, List.Pairwise.nil, fun _ hc => absurd hc List.not_mem_nil, Nat.succ_pos _, hsize⟩

/-! ### A CMD write (R13, R27, R91) -/

theorem step_of_host_access {s : State} {a : HostAccess} {rest : List HostAccess} (h : s.host = a :: rest) :
    step s = hostAccess a { s with host := rest } := by
  unfold step
  rw [h]

/-- A write at the head of the host's accesses to offset 0x00 is the write of CMD: the step is its command. -/
theorem step_of_cmd_write {s : State} {w : Word} {rest : List HostAccess} (h : s.host = .regWrite 0x00 4 w :: rest) :
    step s = command w { s with host := rest, reply := .nothing } := by
  have htransaction : RegTransaction 0x00 4 := by decide
  rw [step_of_host_access h, hostAccess, if_pos htransaction]
  rfl

theorem command_of_decodes {w : Word} {i : Instr} (h : decodeWord w = .instr i) (s : State) : command w s = exec i s := by
  simp only [command, h]

/-- Settles O4: the step is the written command, and a word that decodes is executed. -/
theorem stepRunsTheDecodedCommand : Obligations.StepRunsTheDecodedCommand :=
  fun _ _ _ _ hhost hdecode => (step_of_cmd_write hhost).trans (command_of_decodes hdecode _)

/-! ### Blocks and byte strings (R9, R10) -/

/-- Bit i of byte j, counted in the block. -/
theorem blockByte_getLsbD (b : Block) (j : Nat) {i : Nat} (hi : i < 8) :
    (blockByte b j).getLsbD i = b.getLsbD (120 - 8 * j + i) := by
  simp [blockByte, hi]

theorem blk_bytes16 (b : Block) : blk (bytes16 b) = b := by
  refine BitVec.eq_of_getLsbD_eq fun i hi => ?_
  rw [blk_getLsbD _ i hi, bytes16_length, if_pos (by omega), bytes16_getD b (by omega),
    blockByte_getLsbD _ _ (Nat.mod_lt i (by omega))]
  congr 1; omega

theorem blockByte_blk {s : List Byte} (hs : s.length = 16) {j : Nat} (hj : j < 16) : blockByte (blk s) j = s.getD j 0 := by
  refine BitVec.eq_of_getLsbD_eq fun i hi => ?_
  have hbyte : (120 - 8 * j + i) / 8 = 15 - j := by omega
  have hbit : (120 - 8 * j + i) % 8 = i := by omega
  have hplace : 16 - 1 - (15 - j) = j := by omega
  rw [blockByte_getLsbD _ _ hi, blk_getLsbD _ _ (by omega), hs, hbyte, hbit, hplace, if_pos (by omega)]

theorem bytes16_blk {s : List Byte} (hs : s.length = 16) : bytes16 (blk s) = s := by
  refine List.ext_getElem (by rw [bytes16_length, hs]) fun j hj hj' => ?_
  have hget := blockByte_blk hs (j := j) (by omega)
  rw [List.getD_eq_getElem _ _ hj'] at hget
  simpa [bytes16] using hget

/-- Settles O57: bit by bit, bit i of a block being bit i mod 8 of byte 15 - i / 8. -/
theorem blocksAndByteStringsCorrespond : Obligations.BlocksAndByteStringsCorrespond :=
  ⟨blk_bytes16, fun _ hs => bytes16_blk hs, fun b _ hj => bytes16_getElem? b hj⟩

end Sys2Proof.Machine
end

section
/-! ### The multiplier as multiplication of polynomials (R9, R110) -/

namespace Sys2Proof.Machine

open Polynomial

/-! #### Polynomials over GF(2) from their bits -/

/-- The polynomial with coefficients `c 0` to `c (n - 1)`. -/
noncomputable def bitsPoly (n : Nat) (c : Nat → Bool) : (ZMod 2)[X] := ∑ i ∈ Finset.range n, if c i then X ^ i else 0

theorem bitsPoly_congr {n : Nat} {c d : Nat → Bool} (h : ∀ i < n, c i = d i) : bitsPoly n c = bitsPoly n d :=
  Finset.sum_congr rfl fun i hi => by rw [h i (Finset.mem_range.1 hi)]

/-- The leading coefficient apart. -/
theorem bitsPoly_succ_last (n : Nat) (c : Nat → Bool) :
    bitsPoly (n + 1) c = bitsPoly n c + if c n then X ^ n else 0 := Finset.sum_range_succ _ n

/-- The constant coefficient apart. -/
theorem bitsPoly_succ (n : Nat) (c : Nat → Bool) :
    bitsPoly (n + 1) c = X * bitsPoly n (fun i => c (i + 1)) + if c 0 then 1 else 0 := by
  simp only [bitsPoly, Finset.sum_range_succ', Finset.mul_sum, mul_ite, mul_zero, pow_succ', pow_zero]

/-- Exclusive or of the coefficients is addition. -/
theorem bitsPoly_xor (n : Nat) (c d : Nat → Bool) : bitsPoly n (fun i => c i ^^ d i) = bitsPoly n c + bitsPoly n d := by
  simp only [bitsPoly, ← Finset.sum_add_distrib]
  refine Finset.sum_congr rfl fun i _ => ?_
  by_cases hc : c i = true <;> by_cases hd : d i = true <;> simp [hc, hd, CharTwo.add_self_eq_zero]

/-! #### Blocks -/

/-- The block as a polynomial: bit 127 - i is the coefficient of x^i (R9). -/
noncomputable def blockPoly (b : Block) : (ZMod 2)[X] := bitsPoly 128 fun i => b.getLsbD (127 - i)

/-- The modulus of R9. (Irreducible: a comparison up to unfolding would unroll the power 128.) -/
@[irreducible] noncomputable def gfModulus : (ZMod 2)[X] := X ^ 128 + X ^ 7 + X ^ 2 + X + 1

theorem blockPoly_zero : blockPoly 0 = 0 := by simp [blockPoly, bitsPoly]

theorem blockPoly_xor (a b : Block) : blockPoly (a ^^^ b) = blockPoly a + blockPoly b := by
  simp only [blockPoly, BitVec.getLsbD_xor, bitsPoly_xor]

/-- The constant R is the modulus without x^128 (R110). -/
theorem blockPoly_gfR : blockPoly gfR = X ^ 7 + X ^ 2 + X + 1 := by
  have hbits : ∀ i < 128, gfR.getLsbD (127 - i) = decide (i ∈ ({0, 1, 2, 7} : Finset Nat)) := by decide +kernel
  have hsub : ({0, 1, 2, 7} : Finset Nat) ⊆ Finset.range 128 := by decide
  rw [blockPoly, bitsPoly_congr hbits, bitsPoly]
  simp only [decide_eq_true_eq]
  rw [Finset.sum_ite_mem, Finset.inter_eq_right.2 hsub]
  simp only [Finset.mem_insert, Finset.mem_singleton, Finset.sum_insert, Finset.sum_singleton, Nat.reduceEqDiff,
    or_self, not_false_eq_true, pow_zero, pow_one]
  ring

/-- A shift right multiplies by x; the bit shifted out would be the coefficient of x^128. -/
theorem blockPoly_shiftRight (v : Block) :
    blockPoly (v >>> 1) + (if v.getLsbD 0 then X ^ 128 else 0) = X * blockPoly v := by
  have hlow : blockPoly (v >>> 1) = bitsPoly 128 fun i => v.getLsbD (128 - i) := bitsPoly_congr fun i hi => by
    rw [BitVec.getLsbD_ushiftRight, show 1 + (127 - i) = 128 - i by omega]
  have htop : v.getLsbD 128 = false := BitVec.getLsbD_of_ge v 128 le_rfl
  have hlast := bitsPoly_succ_last 128 fun i => v.getLsbD (128 - i)
  have hfirst := bitsPoly_succ 128 fun i => v.getLsbD (128 - i)
  rw [Nat.sub_self, ← hlow] at hlast
  rw [Nat.sub_zero, htop, if_neg Bool.false_ne_true, add_zero] at hfirst
  rw [← hlast, hfirst, blockPoly]
  exact congrArg (X * ·) (bitsPoly_congr fun i _ => by rw [show 128 - (i + 1) = 127 - i by omega])

/-! #### The ladder modulo the modulus -/

/-- The residue of a polynomial: its image in the quotient by the modulus. -/
noncomputable abbrev residue : (ZMod 2)[X] →+* AdjoinRoot gfModulus := AdjoinRoot.mk gfModulus

/-- x^128 and R have the same residue, for they add up to the modulus. -/
theorem residue_blockPoly_gfR : residue (blockPoly gfR) = residue (X ^ 128) := by
  have hsum : blockPoly gfR + X ^ 128 = gfModulus := by rw [blockPoly_gfR]; unfold gfModulus; ring
  rw [AdjoinRoot.mk_eq_mk, CharTwo.sub_eq_add, hsum]

/-- One step of the ladder on V multiplies by x (R110). -/
theorem residue_gfShift (v : Block) : residue (blockPoly (gfShift v)) = residue (X * blockPoly v) := by
  rw [← blockPoly_shiftRight]
  unfold gfShift
  split_ifs
  · rw [blockPoly_xor, map_add, map_add, residue_blockPoly_gfR]
  · rw [add_zero]

/-- What the ladder multiplies V by when n tests remain: the test of bit n - 1 - j adds x^j times V. -/
noncomputable def ladderPoly (x : Block) (n : Nat) : (ZMod 2)[X] := bitsPoly n fun j => x.getLsbD (n - 1 - j)

theorem ladderPoly_succ (x : Block) (n : Nat) :
    ladderPoly x (n + 1) = X * ladderPoly x n + if x.getLsbD n then 1 else 0 := by
  rw [ladderPoly, bitsPoly_succ, ladderPoly]
  congr 2
  exact bitsPoly_congr fun j _ => by rw [show n + 1 - 1 - (j + 1) = n - 1 - j by omega]

/-- The ladder adds to Z the product of V and the bits still to be tested. -/
theorem residue_gfLadder (x : Block) (n : Nat) : ∀ z v : Block,
    residue (blockPoly (gfLadder x n z v)) = residue (blockPoly z + ladderPoly x n * blockPoly v) := by
  induction n with
  | zero => intro z v; simp [gfLadder, ladderPoly, bitsPoly]
  | succ n ih =>
    intro z v
    have hz : blockPoly (if x.getLsbD n then z ^^^ v else z) =
        blockPoly z + (if x.getLsbD n then 1 else 0) * blockPoly v := by
      split_ifs <;> simp [blockPoly_xor]
    rw [gfLadder, ih, hz, ladderPoly_succ]
    simp only [map_add, map_mul, residue_gfShift]
    ring

theorem residue_gfmul (a b : Block) : residue (blockPoly (gfmul a b)) = residue (blockPoly a * blockPoly b) := by
  have hfull : ladderPoly a 128 = blockPoly a := rfl
  rw [gfmul, residue_gfLadder, blockPoly_zero, zero_add, hfull]

theorem gfModulus_dvd_gfmul_sub (a b : Block) : gfModulus ∣ blockPoly (gfmul a b) - blockPoly a * blockPoly b :=
  AdjoinRoot.mk_eq_mk.1 (residue_gfmul a b)

/-- Settles O51: the ladder from Z = 0 over all 128 bits multiplies V by the whole of X, modulo the modulus. -/
theorem gfmulIsMultiplicationOfPolynomials : Obligations.GfmulIsMultiplicationOfPolynomials := by
  have hdvd := gfModulus_dvd_gfmul_sub
  unfold gfModulus blockPoly bitsPoly at hdvd
  beta_reduce at hdvd
  unfold Obligations.GfmulIsMultiplicationOfPolynomials
  dsimp only
  exact hdvd

end Sys2Proof.Machine
end

section
/-! ### The host's ports: the register map, reads and writes of it, refusals, the key (R23, R25 to R29, R34(b), R36, R62) -/

namespace Sys2Proof.Machine

/-! #### STATUS and CFG -/

/-- The bits of the STATUS word, for all 32 of them (R25). -/
theorem statusWord_getLsbD (st : Status) {i : Nat} (hi : i < 32) :
    (statusWord st).getLsbD i =
      if i = 0 then st.ok else if i = 1 then st.err else if 4 ≤ i then st.errcode.getLsbD (i - 4) else false := by
  simp only [statusWord, bitAt, BitVec.getLsbD_or, BitVec.getLsbD_shiftLeft, BitVec.getLsbD_setWidth,
    BitVec.getLsbD_ofBool]
  split_ifs with h0 h1 h4
  · simp [h0]
  · simp [h1]
  · have hok : i - 0 ≠ 0 := by omega
    have herr : i - 1 ≠ 0 := by omega
    have hcode : i - 4 < 32 := by omega
    simp [h0, herr, hi, hcode, Nat.not_lt.2 h4]
  · have herr : i - 1 ≠ 0 := by omega
    simp [h0, herr, Nat.not_le.1 h4]

/-- Bits 3:2 and 31:8 of the STATUS word are reserved (R25). -/
theorem statusWord_getLsbD_reserved (st : Status) {i : Nat} (hi : i < 32) (h : i = 2 ∨ i = 3 ∨ 8 ≤ i) :
    (statusWord st).getLsbD i = false := by
  have h0 : i ≠ 0 := by omega
  have h1 : i ≠ 1 := by omega
  rw [statusWord_getLsbD st hi, if_neg h0, if_neg h1]
  split_ifs
  · exact BitVec.getLsbD_of_ge _ _ (by omega)
  · rfl

/-- A field whose bits are all 0 reads 0. -/
theorem extractLsb'_eq_zero {w : Word} {start len : Nat} (h : ∀ i < len, w.getLsbD (start + i) = false) :
    w.extractLsb' start len = 0 :=
  BitVec.eq_of_getLsbD_eq fun i hi => by simp [h i hi]

/-- Settles O12: field by field from the bits of the two words. -/
theorem statusAndCfgWordsHaveTheirFields : Obligations.StatusAndCfgWordsHaveTheirFields := by
  refine ⟨fun st => ⟨statusWord_getLsbD st (by omega), statusWord_getLsbD st (by omega), ?_, ?_, ?_⟩, fun t => ⟨?_, ?_⟩⟩
  · exact extractLsb'_eq_zero fun i hi => statusWord_getLsbD_reserved st (by omega) (by omega)
  · refine BitVec.eq_of_getLsbD_eq fun i hi => ?_
    have h0 : 4 + i ≠ 0 := by omega
    have h1 : 4 + i ≠ 1 := by omega
    rw [BitVec.getLsbD_extractLsb', statusWord_getLsbD st (by omega), if_neg h0, if_neg h1, if_pos (by omega),
      Nat.add_sub_cancel_left, decide_eq_true hi, Bool.true_and]
  · exact extractLsb'_eq_zero fun i hi => statusWord_getLsbD_reserved st (by omega) (by omega)
  · refine BitVec.eq_of_getLsbD_eq fun i hi => ?_
    have hword : i < 32 := by omega
    rw [BitVec.getLsbD_extractLsb', cfgWord, BitVec.getLsbD_setWidth, Nat.zero_add, decide_eq_true hi,
      decide_eq_true hword, Bool.true_and, Bool.true_and]
  · refine extractLsb'_eq_zero fun i hi => ?_
    rw [cfgWord, BitVec.getLsbD_setWidth, BitVec.getLsbD_of_ge t _ (by omega), Bool.and_false]

/-! #### The register map (R28) -/

/-- The offset of word k of the data register at `16 * n`. -/
theorem regAt_data {n k : Nat} {r : DataReg} (hr : dataRegAt n = some r) (hk : k < 4) : regAt (16 * n + 4 * k) = .data r k := by
  have hreg : (16 * n + 4 * k) / 16 = n := by omega
  have hword : (16 * n + 4 * k) / 4 % 4 = k := by omega
  rw [regAt, hreg, hr, hword]

/-- The reserved offsets. -/
theorem regAt_reserved {off : Nat} (halign : off % 4 = 0) (h : off = 0x0C ∨ off = 0x2C ∨ 0xA0 ≤ off) :
    regAt off = .reserved := by
  rcases h with rfl | rfl | h
  · rfl
  · rfl
  · obtain ⟨n, rfl⟩ : ∃ n, off = 4 * (n + 40) := ⟨off / 4 - 40, by omega⟩
    have hblock : 4 * (n + 40) / 16 = n / 4 + 10 := by omega
    have hword : 4 * (n + 40) / 4 = n + 40 := by omega
    rw [regAt, hblock, hword]
    rfl

/-! #### Reads and writes of the register space (R29) -/

/-- A register's word does not depend on the accesses to come. -/
theorem regValue_host (s : State) (rest : List HostAccess) (r : RegWord) :
    regValue { s with host := rest } r = regValue s r := by
  cases r with
  | desc r => cases r <;> rfl
  | data r k => cases r <;> rfl
  | _ => rfl

theorem step_of_reg_read {s : State} {off : Nat} {rest : List HostAccess} (hhost : s.host = .regRead off 4 :: rest)
    (ht : RegTransaction off 4) : step s = .next { s with host := rest, reply := .word (regValue s (regAt off)) } := by
  rw [step_of_host_access hhost, hostAccess, if_pos ht, regValue_host]
  rfl

theorem step_of_reg_write {s : State} {off : Nat} {v : Word} {rest : List HostAccess}
    (hhost : s.host = .regWrite off 4 v :: rest) (ht : RegTransaction off 4) :
    step s = regWriteWord v { s with host := rest, reply := .nothing } (regAt off) := by
  rw [step_of_host_access hhost, hostAccess, if_pos ht]
  rfl

/-- Settles O13: the map's word at the offset, and the register the map names. -/
theorem registerReadReturnsTheMappedWord : Obligations.RegisterReadReturnsTheMappedWord := by
  intro s off rest hhost halign hoff
  have reads {o : Nat} {w : RegWord} (h : off = o) (hw : regAt o = w) : regValue s (regAt off) = regValue s w := by
    rw [h, hw]
  refine ⟨_, step_of_reg_read hhost ⟨rfl, halign, by omega⟩, fun h => reads h rfl, fun h => reads h rfl,
    fun h => reads h rfl, fun h => ?_, fun h => reads h rfl, fun h => reads h rfl, fun h => reads h rfl,
    fun h => reads h rfl, fun h => reads h rfl, fun h => reads h rfl, fun h => reads h rfl, fun k hk => ?_⟩
  · rw [regAt_reserved halign h]
    rfl
  · have readsWord {n : Nat} {r : DataReg} (hr : dataRegAt n = some r) (h : off = 16 * n + 4 * k) :
        regValue s (regAt off) = blockWord (getData s r) k := reads h (regAt_data hr hk)
    exact ⟨readsWord (n := 3) rfl, readsWord (n := 4) rfl, readsWord (n := 5) rfl, readsWord (n := 6) rfl,
      readsWord (n := 7) rfl, readsWord (n := 8) rfl, readsWord (n := 9) rfl⟩

/-- A write at a descriptor register's offset. -/
theorem step_of_desc_write {s : State} {off : Nat} {v : Word} {rest : List HostAccess} {r : DescReg}
    (hhost : s.host = .regWrite off 4 v :: rest) (ht : RegTransaction off 4) (hr : regAt off = .desc r) :
    step s = .next (setDesc r v { s with host := rest, reply := .nothing }) := by
  rw [step_of_reg_write hhost ht, hr]
  rfl

/-- Settles O14: the map names the register, which the write replaces. -/
theorem descriptorWriteReplacesTheRegister : Obligations.DescriptorWriteReplacesTheRegister := by
  intro s off v rest hhost
  have writes {o : Nat} {r : DescReg} (h : off = o) (hr : regAt o = .desc r) (ht : RegTransaction o 4) :
      step s = .next (setDesc r v { s with host := rest, reply := .nothing }) := by
    subst h
    exact step_of_desc_write hhost ht hr
  exact ⟨fun h => writes h rfl (by decide), fun h => writes h rfl (by decide), fun h => writes h rfl (by decide),
    fun h => writes h rfl (by decide), fun h => writes h rfl (by decide), fun h => writes h rfl (by decide),
    fun h => writes h rfl (by decide)⟩

/-- A write at the offset of word k of a read-write data register. -/
theorem step_of_data_write {s : State} {n k : Nat} {v : Word} {rest : List HostAccess} {r : DataReg}
    (hn : dataRegAt n = some r) (hk : k < 4) (hr : r ≠ .tag)
    (hhost : s.host = .regWrite (16 * n + 4 * k) 4 v :: rest) :
    step s = .next (setData r (setBlockWord (getData s r) k v) { s with host := rest, reply := .nothing }) := by
  have hlow : n < 10 := by
    by_contra hge
    have hnone := regAt_reserved (off := 16 * n + 4 * 0) (by omega) (by omega)
    rw [regAt_data hn (by omega)] at hnone
    cases hnone
  rw [step_of_reg_write hhost ⟨rfl, by omega, by omega⟩, regAt_data hn hk]
  cases r with
  | tag => exact absurd rfl hr
  | _ => rfl

/-- The written word is replaced and the other three stay (R23). -/
theorem setBlockWord_replaces (b : Block) {k : Nat} (v : Word) (hk : k < 4) :
    (setBlockWord b k v).extractLsb' (96 - 32 * k) 32 = v ∧
      ∀ j < 4, j ≠ k → (setBlockWord b k v).extractLsb' (96 - 32 * j) 32 = b.extractLsb' (96 - 32 * j) 32 :=
  ⟨(blockWord_setBlockWord b k v hk).trans (if_pos rfl),
    fun _ hj hne => (blockWord_setBlockWord b k v hj).trans (if_neg hne)⟩

/-- Settles O15: the map names the register and the word, and the write replaces that word in the block. -/
theorem dataWordWriteReplacesThatWordOnly : Obligations.DataWordWriteReplacesThatWordOnly := by
  intro s k v rest hk
  refine ⟨fun h => ⟨_, setBlockWord_replaces s.h v hk, ?_⟩, fun h => ⟨_, setBlockWord_replaces s.y v hk, ?_⟩,
    fun h => ⟨_, setBlockWord_replaces s.din v hk, ?_⟩, fun h => ⟨_, setBlockWord_replaces s.j0 v hk, ?_⟩,
    fun h => ⟨_, setBlockWord_replaces s.cb v hk, ?_⟩, fun h => ⟨_, setBlockWord_replaces s.tagin v hk, ?_⟩⟩
  · exact step_of_data_write (n := 3) (r := .h) rfl hk (by decide) h
  · exact step_of_data_write (n := 4) (r := .y) rfl hk (by decide) h
  · exact step_of_data_write (n := 5) (r := .din) rfl hk (by decide) h
  · exact step_of_data_write (n := 6) (r := .j0) rfl hk (by decide) h
  · exact step_of_data_write (n := 7) (r := .cb) rfl hk (by decide) h
  · exact step_of_data_write (n := 9) (r := .tagin) rfl hk (by decide) h

/-- Settles O16: at these offsets the map gives STATUS, CFG, a reserved word or a word of TAG, whose writes are ignored. -/
theorem readOnlyAndReservedWritesAreIgnored : Obligations.ReadOnlyAndReservedWritesAreIgnored := by
  intro s off v rest hhost halign hoff hreadonly
  rw [step_of_reg_write hhost ⟨rfl, halign, by omega⟩]
  by_cases hres : off = 0x0C ∨ off = 0x2C ∨ 0xA0 ≤ off
  · rw [regAt_reserved halign hres]
    rfl
  by_cases htag : 0x80 ≤ off
  · obtain ⟨k, hk, rfl⟩ : ∃ k < 4, off = 16 * 8 + 4 * k := ⟨(off - 128) / 4, by omega, by omega⟩
    rw [regAt_data (r := .tag) rfl hk]
    rfl
  · obtain rfl | rfl : off = 0x04 ∨ off = 0x08 := by omega
    · rfl
    · rfl

/-! #### Refusals, the key, reset -/

/-- Settles O17: each port answers its transactions only. -/
theorem nonTransactionsAreRefused : Obligations.NonTransactionsAreRefused := by
  intro s rest
  have hreg {off bytes : Nat} (h : bytes ≠ 4 ∨ off % 4 ≠ 0 ∨ 0xFC < off) : ¬RegTransaction off bytes :=
    fun ⟨hbytes, halign, hoff⟩ => by omega
  have hmem {addr n : Nat} (h : n = 0 ∨ s.memSize < addr + n) : ¬MemTransaction s.memSize addr n :=
    fun ⟨hpos, hin⟩ => by omega
  refine ⟨fun off bytes hhost h => ?_, fun off bytes v hhost h => ?_, fun addr n hhost h => ?_, fun addr data hhost h => ?_⟩
  · rw [step_of_host_access hhost]
    exact if_neg (hreg h)
  · rw [step_of_host_access hhost]
    exact if_neg (hreg h)
  · rw [step_of_host_access hhost]
    exact if_neg (hmem h)
  · rw [step_of_host_access hhost]
    exact if_neg (hmem (h.imp_left List.length_eq_zero_iff.2))

/-- Settles O20: the access sets the key of the cipher port, and its answer is empty. -/
theorem loadKeyChangesOnlyTheExternalKey : Obligations.LoadKeyChangesOnlyTheExternalKey :=
  fun _ _ _ hhost => step_of_host_access hhost

/-- Settles O1: the reset values of the model, written out; nothing has been written to MEM, and no access waits. -/
theorem resetStateIsTheSpecsTable : Obligations.ResetStateIsTheSpecsTable :=
  ⟨⟨rfl, rfl, rfl, rfl, rfl, rfl, rfl⟩, ⟨rfl, rfl, rfl, rfl, rfl, rfl, rfl⟩, rfl, rfl, fun _ => rfl, rfl, rfl, fun _ => rfl⟩

end Sys2Proof.Machine
end

section
/-! ### What commands read and leave: STATUS, the operand registers, the working registers (R21, R22, R25, R26, R35, R37) -/

namespace Sys2Proof.Machine

/-! #### No micro-step reads STATUS (R25) -/

/-- The state with another STATUS. -/
def State.withStatus (st : Status) (s : State) : State := { s with status := st }

/-- The same, wherever the micro-steps have come. -/
def Progress.withStatus (st : Status) : Progress → Progress
  | .running s => .running (s.withStatus st)
  | .raised e s => .raised e (s.withStatus st)

/-- A command's end writes STATUS over whatever it held (R211, R212). -/
theorem finish_withStatus (st : Status) (p : Progress) : (p.withStatus st).finish = p.finish := by cases p <;> rfl

/-- The micro-steps `f` carry STATUS along and do not look at it. -/
def StatusBlind (f : State → Progress) : Prop := ∀ st s, f (s.withStatus st) = (f s).withStatus st

theorem statusBlind_andThen {f g : State → Progress} (hf : StatusBlind f) (hg : StatusBlind g) :
    StatusBlind fun s => (f s).andThen g := by
  intro st s
  simp only [hf st s]
  cases f s with
  | running t => exact hg st t
  | raised e t => rfl

theorem statusBlind_forChunks {body : Nat → State → Progress} (hb : ∀ i, StatusBlind (body i)) (k : Nat) :
    ∀ i, StatusBlind (forChunks body i k) := by
  induction k with
  | zero => exact fun _ _ _ => rfl
  | succ k ih => exact fun i => statusBlind_andThen (hb i) (ih (i + 1))

theorem withCipher_withStatus (b : Block) {next : Block → State → Progress} (hn : ∀ ks, StatusBlind (next ks))
    (st : Status) (s : State) : withCipher b (s.withStatus st) next = (withCipher b s next).withStatus st := by
  cases h : callFails s.cipher 0 with
  | true => rw [withCipher_of_fail next h]; exact withCipher_of_fail next h
  | false => rw [withCipher_of_answer next h, ← hn]; exact withCipher_of_answer next h

theorem statusBlind_requireRange (a n : Word) : StatusBlind (requireRange a n) := by
  intro st s
  by_cases hv : ValidRange s.memSize a n
  · rw [requireRange_of_valid hv]; exact requireRange_of_valid hv
  · rw [requireRange_of_invalid hv]; exact requireRange_of_invalid hv

theorem absorbBuffer_withStatus (a n : Word) (st : Status) (s : State) :
    absorbBuffer a n (s.withStatus st) = (absorbBuffer a n s).withStatus st := by
  rw [absorbBuffer_eq, absorbBuffer_eq]; rfl

theorem deriveJ0_withStatus (a n : Word) (st : Status) (s : State) :
    deriveJ0 a n (s.withStatus st) = (deriveJ0 a n s).withStatus st := by
  rw [deriveJ0_eq, deriveJ0_eq]; rfl

theorem statusBlind_deriveH : StatusBlind deriveH := withCipher_withStatus 0 fun _ _ _ => rfl

theorem statusBlind_ghashSteps : StatusBlind ghashSteps := by
  intro st s
  have hrange := statusBlind_andThen (statusBlind_requireRange s.srcaddr s.len)
    (g := fun t => .running (absorbBuffer t.srcaddr t.len { t with y := 0 }))
    (fun st t => congrArg Progress.running (absorbBuffer_withStatus t.srcaddr t.len st { t with y := 0 })) st s
  by_cases hl : s.len.toNat % 16 ≠ 0
  · rw [ghashSteps, ghashSteps, if_pos hl]; exact if_pos hl
  · rw [ghashSteps, ghashSteps, if_neg hl]; exact (if_neg hl).trans hrange

theorem statusBlind_j0deriveSteps : StatusBlind j0deriveSteps := fun st s =>
  statusBlind_andThen (statusBlind_requireRange s.ivaddr s.ivlen)
    (g := fun t => .running (deriveJ0 t.ivaddr t.ivlen t))
    (fun st t => congrArg Progress.running (deriveJ0_withStatus t.ivaddr t.ivlen st t)) st s

theorem statusBlind_gctrChunk (src dst n i : Nat) : StatusBlind (gctrChunk src dst n i) := by
  intro st s
  cases h : callFails s.cipher 0 with
  | true => rw [gctrChunk_of_fail _ _ _ _ s h]; exact gctrChunk_of_fail _ _ _ _ _ h
  | false => rw [gctrChunk_of_answer _ _ _ _ s h]; exact gctrChunk_of_answer _ _ _ _ _ h

theorem statusBlind_gctrRun (src dst n : Word) : StatusBlind (gctrRun src dst n) :=
  statusBlind_forChunks (statusBlind_gctrChunk _ _ _) _ _

theorem statusBlind_gctrSteps : StatusBlind gctrSteps := fun st s =>
  statusBlind_andThen (statusBlind_requireRange s.srcaddr s.len)
    (fun st t => statusBlind_andThen (statusBlind_requireRange t.dstaddr t.len)
      (fun st u => statusBlind_gctrRun u.srcaddr u.dstaddr u.len st u) st t) st s

theorem statusBlind_gcmcfgSteps (t : Nat) : StatusBlind (gcmcfgSteps t) := by
  intro st s
  unfold gcmcfgSteps
  split_ifs
  · rfl
  · rfl

theorem statusBlind_checkBuffers : StatusBlind checkBuffers := by
  intro st s
  by_cases hv : BuffersValid s
  · rw [checkBuffers_of_valid hv]; exact checkBuffers_of_valid hv
  · rw [checkBuffers_of_invalid hv]; exact checkBuffers_of_invalid hv

theorem statusBlind_beginMessage : StatusBlind beginMessage := by
  intro st s
  cases h : callFails s.cipher 0 with
  | true => rw [beginMessage_of_fail h]; exact beginMessage_of_fail h
  | false => rw [beginMessage_of_answer h]; exact beginMessage_of_answer h

theorem statusBlind_withFullTag {next : Block → State → Progress} (hn : ∀ full, StatusBlind (next full)) :
    StatusBlind fun s => withFullTag s next := fun st s =>
  withCipher_withStatus s.j0 (next := fun ks t => next (t.y ^^^ ks) (incCb t))
    (fun ks st t => hn (t.y ^^^ ks) st (incCb t)) st { s with cb := s.j0 }

theorem statusBlind_gcmencChunk (i : Nat) : StatusBlind (gcmencChunk i) := by
  intro st s
  cases h : callFails s.cipher 0 with
  | true => rw [gcmencChunk_of_fail _ s h]; exact gcmencChunk_of_fail _ _ h
  | false => rw [gcmencChunk_of_answer _ s h]; exact gcmencChunk_of_answer _ _ h

theorem statusBlind_gcmencLoop (k : Nat) : StatusBlind (forChunks gcmencChunk 0 k) :=
  statusBlind_forChunks statusBlind_gcmencChunk k 0

theorem statusBlind_gcmencSteps : StatusBlind gcmencSteps :=
  statusBlind_andThen statusBlind_checkBuffers <| statusBlind_andThen statusBlind_beginMessage <|
    statusBlind_andThen (fun st s => statusBlind_gcmencLoop (nchunks s.len.toNat) st { s with cb := inc32 s.j0 })
      fun st s => statusBlind_withFullTag (fun _ _ _ => rfl) st (absorbLengths s)

theorem statusBlind_requireTag (full : Block) : StatusBlind (requireTag full) := by
  intro st s
  by_cases htag : tagPrefix full s.taglen.toNat ≠ tagPrefix s.tagin s.taglen.toNat
  · rw [requireTag, requireTag, if_pos htag]; exact if_pos htag
  · rw [requireTag, requireTag, if_neg htag]; exact if_neg htag

theorem statusBlind_gcmdecSteps : StatusBlind gcmdecSteps := by
  refine statusBlind_andThen statusBlind_checkBuffers (statusBlind_andThen statusBlind_beginMessage fun st s => ?_)
  have htext : absorbBuffer (s.withStatus st).srcaddr (s.withStatus st).len (s.withStatus st) =
    (absorbBuffer s.srcaddr s.len s).withStatus st := absorbBuffer_withStatus s.srcaddr s.len st s
  rw [htext]
  exact statusBlind_withFullTag (fun full => statusBlind_andThen (statusBlind_requireTag full)
    fun st t => statusBlind_gctrRun t.srcaddr t.dstaddr t.len st { t with cb := inc32 t.j0 }) st
    (absorbLengths (absorbBuffer s.srcaddr s.len s))

/-- The end of blind micro-steps is the same whatever STATUS held before. -/
theorem finish_of_statusBlind {f : State → Progress} (hf : StatusBlind f) (s : State) (st : Status) :
    (Host.Outcome.next (f (s.withStatus st)).finish : Host.Outcome State Fault Refusal) = .next (f s).finish := by
  rw [hf, finish_withStatus]

/-- Settles O39: the micro-steps of each command carry STATUS along, and its end writes over it. -/
theorem noCommandReadsStatus : Obligations.NoCommandReadsStatus := by
  intro i s st
  cases i with
  | nop => rfl
  | ghinit => rfl
  | ghblk => rfl
  | ghash => exact finish_of_statusBlind statusBlind_ghashSteps s st
  | hderive => exact finish_of_statusBlind statusBlind_deriveH s st
  | j0derive => exact finish_of_statusBlind statusBlind_j0deriveSteps s st
  | inc32 => rfl
  | gctr => exact finish_of_statusBlind statusBlind_gctrSteps s st
  | gcmcfg t => exact finish_of_statusBlind (statusBlind_gcmcfgSteps t) s st
  | gcmenc => exact finish_of_statusBlind statusBlind_gcmencSteps s st
  | gcmdec => exact finish_of_statusBlind statusBlind_gcmdecSteps s st
  | sreset => rfl

/-! #### What commands leave: the operand registers and the surroundings (R21, R22, R26, R35) -/

/-- DIN, TAGIN and the descriptor registers of `t` are those of `s`. -/
abbrev SameOperands (s t : State) : Prop :=
  t.din = s.din ∧ t.tagin = s.tagin ∧ t.ivaddr = s.ivaddr ∧ t.ivlen = s.ivlen ∧ t.aadaddr = s.aadaddr ∧
    t.aadlen = s.aadlen ∧ t.srcaddr = s.srcaddr ∧ t.dstaddr = s.dstaddr ∧ t.len = s.len

/-- The parameters, the accesses to come and the last reply of `t` are those of `s`. -/
abbrev SameSurroundings (s t : State) : Prop :=
  t.memSize = s.memSize ∧ t.cipher.key = s.cipher.key ∧ t.cipher.known = s.cipher.known ∧ t.host = s.host ∧
    t.reply = s.reply

/-- `t` comes from `s` by changes of H, Y, J0, CB, TAG, STATUS, MEM and the record of calls only. -/
def SameButWorking (s t : State) : Prop := SameOperands s t ∧ t.taglen = s.taglen ∧ SameSurroundings s t

theorem sameButWorking_refl (s : State) : SameButWorking s s :=
  ⟨⟨rfl, rfl, rfl, rfl, rfl, rfl, rfl, rfl, rfl⟩, rfl, rfl, rfl, rfl, rfl, rfl⟩

/-- The micro-steps change the working state only, whether they go on or have raised. -/
abbrev Progress.SameButWorking (s : State) (p : Progress) : Prop :=
  p.Holds (Machine.SameButWorking s) fun _ => Machine.SameButWorking s

section
variable {s t : State}

theorem requireRange_sameButWorking (a n : Word) (h : SameButWorking s t) : (requireRange a n t).SameButWorking s := by
  unfold requireRange
  split_ifs
  · exact h
  · exact h

theorem checkBuffers_sameButWorking (h : SameButWorking s t) : (checkBuffers t).SameButWorking s := by
  by_cases hv : BuffersValid t
  · rw [checkBuffers_of_valid hv]; exact h
  · rw [checkBuffers_of_invalid hv]; exact h

theorem absorbBuffer_sameButWorking (a n : Word) (h : SameButWorking s t) : SameButWorking s (absorbBuffer a n t) := by
  rw [absorbBuffer_eq]; exact h

theorem deriveJ0_sameButWorking (a n : Word) (h : SameButWorking s t) : SameButWorking s (deriveJ0 a n t) := by
  rw [deriveJ0_eq]; exact h

theorem ghashSteps_sameButWorking (h : SameButWorking s t) : (ghashSteps t).SameButWorking s := by
  unfold ghashSteps
  split_ifs
  · exact h
  · exact holds_andThen (requireRange_sameButWorking _ _ h) fun _ hu => absorbBuffer_sameButWorking _ _ hu

theorem deriveH_sameButWorking (h : SameButWorking s t) : (deriveH t).SameButWorking s :=
  holds_withCipher (fun _ => h) fun _ => h

theorem j0deriveSteps_sameButWorking (h : SameButWorking s t) : (j0deriveSteps t).SameButWorking s :=
  holds_andThen (requireRange_sameButWorking _ _ h) fun _ hu => deriveJ0_sameButWorking _ _ hu

theorem gctrChunk_sameButWorking (src dst n i : Nat) (h : SameButWorking s t) :
    (gctrChunk src dst n i t).SameButWorking s := by
  unfold gctrChunk
  exact holds_withCipher (fun _ => h) fun _ => h

theorem gctrRun_sameButWorking (src dst n : Word) (h : SameButWorking s t) : (gctrRun src dst n t).SameButWorking s :=
  holds_forChunks (I := fun _ => SameButWorking s) (fun i _ hu => gctrChunk_sameButWorking _ _ _ i hu) _ 0 t h

theorem gctrSteps_sameButWorking (h : SameButWorking s t) : (gctrSteps t).SameButWorking s :=
  holds_andThen (requireRange_sameButWorking _ _ h) fun _ hu =>
    holds_andThen (requireRange_sameButWorking _ _ hu) fun _ hv => gctrRun_sameButWorking _ _ _ hv

theorem beginMessage_sameButWorking (h : SameButWorking s t) : (beginMessage t).SameButWorking s := by
  cases hc : callFails t.cipher 0 with
  | true => rw [beginMessage_of_fail hc]; exact h
  | false => rw [beginMessage_of_answer hc]; exact h

theorem gcmencChunk_sameButWorking (i : Nat) (h : SameButWorking s t) : (gcmencChunk i t).SameButWorking s := by
  unfold gcmencChunk
  exact holds_withCipher (fun _ => h) fun _ => h

theorem gcmencLoop_sameButWorking (k : Nat) (h : SameButWorking s t) : (forChunks gcmencChunk 0 k t).SameButWorking s :=
  holds_forChunks (I := fun _ => SameButWorking s) (fun i _ hu => gcmencChunk_sameButWorking i hu) k 0 t h

theorem withFullTag_sameButWorking {next : Block → State → Progress} (h : SameButWorking s t)
    (hn : ∀ full u, SameButWorking s u → (next full u).SameButWorking s) : (withFullTag t next).SameButWorking s := by
  unfold withFullTag
  exact holds_withCipher (fun _ => h) fun _ => hn _ _ h

theorem gcmencSteps_sameButWorking (h : SameButWorking s t) : (gcmencSteps t).SameButWorking s :=
  holds_andThen (checkBuffers_sameButWorking h) fun _ hu =>
    holds_andThen (beginMessage_sameButWorking hu) fun _ hv =>
      holds_andThen (gcmencLoop_sameButWorking _ hv) fun _ hw => withFullTag_sameButWorking hw fun _ _ hx => hx

theorem requireTag_sameButWorking (full : Block) (h : SameButWorking s t) : (requireTag full t).SameButWorking s := by
  unfold requireTag
  split_ifs
  · exact h
  · exact h

theorem gcmdecSteps_sameButWorking (h : SameButWorking s t) : (gcmdecSteps t).SameButWorking s :=
  holds_andThen (checkBuffers_sameButWorking h) fun _ hu =>
    holds_andThen (beginMessage_sameButWorking hu) fun _ hv =>
      withFullTag_sameButWorking (absorbBuffer_sameButWorking _ _ hv) fun _ _ hw =>
        holds_andThen (requireTag_sameButWorking _ hw) fun _ hx => gctrRun_sameButWorking _ _ _ hx

/-- A command's end writes STATUS only. -/
theorem finish_sameButWorking {p : Progress} (h : p.SameButWorking s) : SameButWorking s p.finish := by
  rcases finish_of_holds h with ⟨u, hu, heq⟩ | ⟨e, u, hu, heq⟩
  · exact heq ▸ hu
  · exact heq ▸ hu

theorem exec_sameButWorking {i : Instr} (hreset : i ≠ .sreset) (hcfg : ∀ x, i ≠ .gcmcfg x) (h : exec i s = .next t) :
    SameButWorking s t := by
  have hs := sameButWorking_refl s
  cases i with
  | sreset => exact absurd rfl hreset
  | gcmcfg x => exact absurd rfl (hcfg x)
  | nop => cases h; exact hs
  | ghinit => cases h; exact hs
  | ghblk => cases h; exact hs
  | inc32 => cases h; exact hs
  | ghash => cases h; exact finish_sameButWorking (ghashSteps_sameButWorking hs)
  | hderive => cases h; exact finish_sameButWorking (deriveH_sameButWorking hs)
  | j0derive => cases h; exact finish_sameButWorking (j0deriveSteps_sameButWorking hs)
  | gctr => cases h; exact finish_sameButWorking (gctrSteps_sameButWorking hs)
  | gcmenc => cases h; exact finish_sameButWorking (gcmencSteps_sameButWorking hs)
  | gcmdec => cases h; exact finish_sameButWorking (gcmdecSteps_sameButWorking hs)

/-- GCMCFG writes TAGLEN and STATUS only (R171). -/
theorem exec_gcmcfg_frame {x : Nat} (h : exec (.gcmcfg x) s = .next t) :
    t = { s with taglen := t.taglen, status := t.status } := by
  cases h
  unfold gcmcfgSteps
  split_ifs
  · rfl
  · rfl

end

/-- Settles O43: SRESET keeps the surroundings by R201, GCMCFG all but TAGLEN, and every other command the operand
registers, TAGLEN and the surroundings. -/
theorem commandsLeaveTheOperandRegisters : Obligations.CommandsLeaveTheOperandRegisters := by
  intro i s t h
  by_cases hreset : i = .sreset
  · subst hreset
    cases h
    exact ⟨fun hne => absurd rfl hne, fun hne => absurd rfl hne, rfl, rfl, rfl, rfl, rfl⟩
  by_cases hcfg : ∃ x, i = .gcmcfg x
  · obtain ⟨x, rfl⟩ := hcfg
    rw [exec_gcmcfg_frame h]
    obtain ⟨hops, -, hsur⟩ := sameButWorking_refl s
    exact ⟨fun _ => hops, fun _ hne => absurd rfl (hne x), hsur⟩
  · obtain ⟨hops, htag, hsur⟩ := exec_sameButWorking hreset (fun x hx => hcfg ⟨x, hx⟩) h
    exact ⟨fun _ => hops, fun _ _ => htag, hsur⟩

/-! #### A message begins afresh (R37) -/

/-- The micro-steps reach the same state, or raise the same error, not E_AUTH, with the same MEM, STATUS and Cipher calls. -/
def SameOutcome (p q : Progress) : Prop :=
  p = q ∨ ∃ e u v, p = .raised e u ∧ q = .raised e v ∧ e ≠ .eAuth ∧ u.mem = v.mem ∧ u.cipher = v.cipher

/-- The registers a message overwrites before it reads them. -/
def State.withWorking (h y j0 cb tag : Block) (s : State) : State := { s with h := h, y := y, j0 := j0, cb := cb, tag := tag }

/-- The micro-steps `next` do not look at the CB they are given. -/
def OverwritesCb (next : State → Progress) : Prop := ∀ s cb, next { s with cb := cb } = next s

/-- The shape of GCMENC and GCMDEC: the range checks, the common beginning, the rest. -/
def messageSteps (next : State → Progress) (s : State) : Progress :=
  (checkBuffers s).andThen fun s => (beginMessage s).andThen next

theorem messageSteps_of_valid (next : State → Progress) {s : State} (h : BuffersValid s) :
    messageSteps next s = (beginMessage s).andThen next := by
  rw [messageSteps, checkBuffers_of_valid h, andThen_running]

theorem messageSteps_of_invalid (next : State → Progress) {s : State} (h : ¬BuffersValid s) :
    messageSteps next s = .raised .eRange s := by
  rw [messageSteps, checkBuffers_of_invalid h, andThen_raised]

/-- After the range checks `beginMessage` writes TAG, H, J0 and Y, and micro-steps that write CB first see no old value. -/
theorem messageSteps_sameOutcome {next : State → Progress} (hn : OverwritesCb next) (s : State) (h y j0 cb tag : Block) :
    SameOutcome (messageSteps next s) (messageSteps next (s.withWorking h y j0 cb tag)) := by
  set u := s.withWorking h y j0 cb tag
  by_cases hv : BuffersValid s
  · have hvu : BuffersValid u := hv
    rw [messageSteps_of_valid next hv, messageSteps_of_valid next hvu]
    cases hc : callFails s.cipher 0 with
    | true =>
      have hcu : callFails u.cipher 0 = true := hc
      rw [beginMessage_of_fail hc, beginMessage_of_fail hcu]
      exact .inr ⟨.ePrim, _, _, rfl, rfl, by decide, rfl, rfl⟩
    | false =>
      have hcu : callFails u.cipher 0 = false := hc
      rw [beginMessage_of_answer hc, beginMessage_of_answer hcu]
      exact .inl (hn _ cb).symm
  · have hvu : ¬BuffersValid u := hv
    rw [messageSteps_of_invalid next hv, messageSteps_of_invalid next hvu]
    exact .inr ⟨.eRange, _, _, rfl, rfl, by decide, rfl, rfl⟩

/-- GCMENC's loop starts from CB = `inc32(J0)` (R174). -/
theorem gcmencSteps_sameOutcome (s : State) (h y j0 cb tag : Block) :
    SameOutcome (gcmencSteps s) (gcmencSteps (s.withWorking h y j0 cb tag)) :=
  messageSteps_sameOutcome (fun _ _ => rfl) s h y j0 cb tag

/-- GCMDEC's tag step starts from CB = J0 (R180). -/
theorem gcmdecSteps_sameOutcome (s : State) (h y j0 cb tag : Block) :
    SameOutcome (gcmdecSteps s) (gcmdecSteps (s.withWorking h y j0 cb tag)) := by
  refine messageSteps_sameOutcome (fun s cb => ?_) s h y j0 cb tag
  rw [absorbBuffer_eq, absorbBuffer_eq]
  rfl

/-- What the ends of two such commands have in common. -/
theorem finish_of_sameOutcome {p q : Progress} (hpq : SameOutcome p q) :
    p.finish.mem = q.finish.mem ∧ p.finish.status = q.finish.status ∧ p.finish.cipher = q.finish.cipher ∧
      (p.finish.status.err = false ∨ p.finish.status.errcode = 5 → p.finish = q.finish) := by
  rcases hpq with rfl | ⟨e, u, v, rfl, rfl, hauth, hmem, hcipher⟩
  · exact ⟨rfl, rfl, rfl, fun _ => rfl⟩
  · refine ⟨hmem, rfl, hcipher, fun hend => ?_⟩
    rcases hend with herr | hcode
    · cases herr
    · have hother : ∀ e, errorCode e = 5 → e = .eAuth := fun e => by cases e <;> decide
      exact absurd (hother e hcode) hauth

/-- Settles O45: both runs raise at the same place before a working register is read, or go on from one state. -/
theorem workingValuesDoNotReachTheNextMessage : Obligations.WorkingValuesDoNotReachTheNextMessage := by
  intro s h y j0 cb tag i hi
  obtain rfl | rfl := List.mem_pair.1 hi
  · exact ⟨_, _, rfl, rfl, finish_of_sameOutcome (gcmencSteps_sameOutcome s h y j0 cb tag)⟩
  · exact ⟨_, _, rfl, rfl, finish_of_sameOutcome (gcmdecSteps_sameOutcome s h y j0 cb tag)⟩

end Sys2Proof.Machine
end

section
/-! ### The operand memory: the host's memory port, the output range, the source buffer (R60, R62, R65, R112, R115, R116) -/

namespace Sys2Proof.Machine

/-! #### The memory port (R62) -/

/-- A read of a valid range hands back the bytes and changes nothing else. -/
theorem step_of_mem_read {s : State} {addr n : Nat} {rest : List HostAccess} (hhost : s.host = .memRead addr n :: rest)
    (ht : MemTransaction s.memSize addr n) :
    step s = .next { s with host := rest, reply := .bytes (memRead s addr n) } := by
  rw [step_of_host_access hhost, hostAccess, if_pos ht]
  rfl

/-- A write of a valid range is MemWrite of its bytes, answered by nothing. -/
theorem step_of_mem_write {s : State} {addr : Nat} {data : List Byte} {rest : List HostAccess}
    (hhost : s.host = .memWrite addr data :: rest) (ht : MemTransaction s.memSize addr data.length) :
    step s = .next (memWrite addr data { s with host := rest, reply := .nothing }) := by
  rw [step_of_host_access hhost, hostAccess, if_pos ht]
  rfl

/-- Settles O18: the reply is MemRead of the range. -/
theorem memoryPortReadReturnsTheBytes : Obligations.MemoryPortReadReturnsTheBytes :=
  fun s addr n _ hhost hpos hin =>
    ⟨memRead s addr n, step_of_mem_read hhost ⟨hpos, hin⟩, memRead_length .., memRead_getElem? addr s n⟩

/-- Settles O19: the step is MemWrite of the bytes, and MEM reads inside and outside them by the laws of MemWrite. -/
theorem memoryPortWriteStoresTheBytes : Obligations.MemoryPortWriteStoresTheBytes :=
  fun _ addr data _ hhost hne hin =>
    ⟨_, step_of_mem_write hhost ⟨List.length_pos_iff.2 hne, hin⟩, rfl, readByte_memWrite_inside addr _ data,
      fun a ha => readByte_memWrite_outside addr a _ data ha⟩

/-! #### GHASH over the source buffer (R115, R116) -/

/-- The block loop over `k` whole blocks of MEM, block j being the 16 bytes at `a + 16 j`. -/
theorem ghashFrom_memRead_blocks (h y : Block) (s : State) (a k : Nat) :
    ghashFrom h y (memRead s a (16 * k)) =
      (List.range k).foldl (fun y j => gfmul (y ^^^ blk (memRead s (a + 16 * j) 16)) h) y := by
  induction k with
  | zero => simp [memRead]
  | succ k ih =>
    have hwhole : (memRead s a (16 * k)).length % 16 = 0 := by simp
    rw [Nat.mul_succ, memRead_add, ghashFrom_append _ _ _ _ hwhole, ghashFrom_block _ _ _ (memRead_length ..), ih,
      List.range_succ, List.foldl_append]
    rfl

/-- GHASH on whole blocks in a valid range leaves the hash of the buffer in Y. -/
theorem ghashSteps_of_valid {s : State} (halign : s.len.toNat % 16 = 0) (hv : ValidRange s.memSize s.srcaddr s.len) :
    ghashSteps s = .running { s with y := ghashFrom s.h 0 (buffer s s.srcaddr s.len) } := by
  have hwhole : (buffer s s.srcaddr s.len).length % 16 = 0 := by simp [buffer, halign]
  rw [ghashSteps, if_neg (not_not.2 halign), requireRange_of_valid hv, andThen_running, absorbBuffer_eq]
  exact congrArg (fun x => Progress.running { s with y := ghashFrom s.h 0 x }) (pad128_of_aligned _ hwhole)

/-- Settles O52: the padding is empty, and the hash of the buffer is the loop over its blocks. -/
theorem ghashAbsorbsBlockAfterBlock : Obligations.GhashAbsorbsBlockAfterBlock := by
  intro s halign hv
  refine ⟨_, rfl, ?_⟩
  have hlen : s.len.toNat = 16 * (s.len.toNat / 16) := by omega
  rw [ghashSteps_of_valid halign hv, ← ghashFrom_memRead_blocks, ← hlen]
  rfl

/-! #### Only the output range is written (R65) -/

/-- The output range of `t` is that of `s`, and address `a` reads in `t` as in `s`. -/
def KeepsByte (a : Nat) (s t : State) : Prop := t.dstaddr = s.dstaddr ∧ t.len = s.len ∧ readByte t a = readByte s a

/-- The micro-steps keep the byte, whether they go on or have raised. -/
abbrev Progress.KeepsByte (a : Nat) (s : State) (p : Progress) : Prop :=
  p.Holds (Machine.KeepsByte a s) fun _ => Machine.KeepsByte a s

section
variable {a : Nat} {s t : State}

theorem keepsByte_refl : KeepsByte a s s := ⟨rfl, rfl, rfl⟩

/-- A command's end writes STATUS only. -/
theorem readByte_finish {p : Progress} (h : p.KeepsByte a s) : readByte p.finish a = readByte s a := by
  rcases finish_of_holds h with ⟨u, ⟨-, -, hu⟩, heq⟩ | ⟨e, u, ⟨-, -, hu⟩, heq⟩
  · exact heq ▸ hu
  · exact heq ▸ hu

/-- A chunk's bytes lie in the output range (R66). -/
theorem readByte_memWrite_chunk {dst n : Word} {i : Nat} {data : List Byte} (hout : ¬InRange a dst n)
    (hl : data.length = min 16 (n.toNat - 16 * i)) :
    readByte (memWrite (dst.toNat + 16 * i) data t) a = readByte t a := by
  refine readByte_memWrite_outside _ _ _ _ ?_
  by_cases hlow : a < dst.toNat
  · exact .inl (by omega)
  · have hhigh : dst.toNat + n.toNat ≤ a := not_lt.1 fun hlt => hout ⟨not_lt.1 hlow, hlt⟩
    omega

theorem keepsByte_memWrite_chunk {i : Nat} {data : List Byte} (hout : ¬InRange a s.dstaddr s.len) (h : KeepsByte a s t)
    (hl : data.length = min 16 (t.len.toNat - 16 * i)) :
    KeepsByte a s (memWrite (t.dstaddr.toNat + 16 * i) data t) := by
  obtain ⟨hdst, hlen, hbyte⟩ := h
  have hout' : ¬InRange a t.dstaddr t.len := by rwa [hdst, hlen]
  exact ⟨hdst, hlen, (readByte_memWrite_chunk hout' hl).trans hbyte⟩

/-! The micro-steps that write no byte. -/

theorem requireRange_keepsByte (b n : Word) (h : KeepsByte a s t) : (requireRange b n t).KeepsByte a s := by
  unfold requireRange
  split_ifs
  · exact h
  · exact h

theorem checkBuffers_keepsByte (h : KeepsByte a s t) : (checkBuffers t).KeepsByte a s := by
  by_cases hv : BuffersValid t
  · rw [checkBuffers_of_valid hv]; exact h
  · rw [checkBuffers_of_invalid hv]; exact h

theorem absorbBuffer_keepsByte (b n : Word) (h : KeepsByte a s t) : KeepsByte a s (absorbBuffer b n t) := by
  rw [absorbBuffer_eq]; exact h

theorem deriveJ0_keepsByte (b n : Word) (h : KeepsByte a s t) : KeepsByte a s (deriveJ0 b n t) := by
  rw [deriveJ0_eq]; exact h

theorem deriveH_keepsByte (h : KeepsByte a s t) : (deriveH t).KeepsByte a s := holds_withCipher (fun _ => h) fun _ => h

theorem beginMessage_keepsByte (h : KeepsByte a s t) : (beginMessage t).KeepsByte a s := by
  cases hc : callFails t.cipher 0 with
  | true => rw [beginMessage_of_fail hc]; exact h
  | false => rw [beginMessage_of_answer hc]; exact h

theorem withFullTag_keepsByte {next : Block → State → Progress} (h : KeepsByte a s t)
    (hn : ∀ full u, KeepsByte a s u → (next full u).KeepsByte a s) : (withFullTag t next).KeepsByte a s := by
  unfold withFullTag
  exact holds_withCipher (fun _ => h) fun _ => hn _ _ h

theorem requireTag_keepsByte (full : Block) (h : KeepsByte a s t) : (requireTag full t).KeepsByte a s := by
  unfold requireTag
  split_ifs
  · exact h
  · exact h

theorem ghashSteps_keepsByte (h : KeepsByte a s t) : (ghashSteps t).KeepsByte a s := by
  unfold ghashSteps
  split_ifs
  · exact h
  · exact holds_andThen (requireRange_keepsByte _ _ h) fun _ hu => absorbBuffer_keepsByte _ _ hu

theorem j0deriveSteps_keepsByte (h : KeepsByte a s t) : (j0deriveSteps t).KeepsByte a s :=
  holds_andThen (requireRange_keepsByte _ _ h) fun _ hu => deriveJ0_keepsByte _ _ hu

theorem gcmcfgSteps_keepsByte (x : Nat) (h : KeepsByte a s t) : (gcmcfgSteps x t).KeepsByte a s := by
  unfold gcmcfgSteps
  split_ifs
  · exact h
  · exact h

/-! The chunk loops and the commands that run them, for an address outside the output range. -/

variable (hout : ¬InRange a s.dstaddr s.len)
include hout

theorem gctrRun_keepsByte (src : Word) (h : KeepsByte a s t) : (gctrRun src t.dstaddr t.len t).KeepsByte a s := by
  obtain ⟨hdst, hlen, -⟩ := id h
  rw [hdst, hlen]
  refine holds_forChunks (I := fun _ => KeepsByte a s) (fun i u hu => ?_) _ 0 t h
  cases hc : callFails u.cipher 0 with
  | true => rw [gctrChunk_of_fail _ _ _ _ _ hc]; exact hu
  | false =>
    obtain ⟨hdst, hlen, -⟩ := id hu
    rw [gctrChunk_of_answer _ _ _ _ _ hc, ← hdst, ← hlen]
    exact keepsByte_memWrite_chunk hout hu (chunkOutput_length ..)

theorem gcmencLoop_keepsByte (k : Nat) (h : KeepsByte a s t) : (forChunks gcmencChunk 0 k t).KeepsByte a s := by
  refine holds_forChunks (I := fun _ => KeepsByte a s) (fun i u hu => ?_) k 0 t h
  cases hc : callFails u.cipher 0 with
  | true => rw [gcmencChunk_of_fail _ _ hc]; exact hu
  | false =>
    rw [gcmencChunk_of_answer _ _ hc]
    exact keepsByte_memWrite_chunk hout hu (chunkOutput_length ..)

theorem gctrSteps_keepsByte (h : KeepsByte a s t) : (gctrSteps t).KeepsByte a s :=
  holds_andThen (requireRange_keepsByte _ _ h) fun _ hu =>
    holds_andThen (requireRange_keepsByte _ _ hu) fun _ hv => gctrRun_keepsByte hout _ hv

theorem gcmencSteps_keepsByte (h : KeepsByte a s t) : (gcmencSteps t).KeepsByte a s :=
  holds_andThen (checkBuffers_keepsByte h) fun _ hu =>
    holds_andThen (beginMessage_keepsByte hu) fun _ hv =>
      holds_andThen (gcmencLoop_keepsByte hout _ hv) fun _ hw => withFullTag_keepsByte hw fun _ _ hx => hx

theorem gcmdecSteps_keepsByte (h : KeepsByte a s t) : (gcmdecSteps t).KeepsByte a s :=
  holds_andThen (checkBuffers_keepsByte h) fun _ hu =>
    holds_andThen (beginMessage_keepsByte hu) fun _ hv =>
      withFullTag_keepsByte (absorbBuffer_keepsByte _ _ hv) fun _ _ hw =>
        holds_andThen (requireTag_keepsByte _ hw) fun u hx =>
          gctrRun_keepsByte (t := { u with cb := inc32 u.j0 }) hout u.srcaddr hx

end

/-- Settles O42: a command that writes MEM writes chunks of its output range, and the others write none. -/
theorem onlyTheDestinationRangeIsWritten : Obligations.OnlyTheDestinationRangeIsWritten := by
  intro i s t a h hwhere
  have hs : KeepsByte a s s := keepsByte_refl
  have hout (hi : i ∈ [Instr.gctr, Instr.gcmenc, Instr.gcmdec]) : ¬InRange a s.dstaddr s.len :=
    hwhere.resolve_left (not_not.2 hi)
  cases i with
  | nop => cases h; rfl
  | ghinit => cases h; rfl
  | ghblk => cases h; rfl
  | inc32 => cases h; rfl
  | sreset => cases h; rfl
  | ghash => cases h; exact readByte_finish (ghashSteps_keepsByte hs)
  | hderive => cases h; exact readByte_finish (deriveH_keepsByte hs)
  | j0derive => cases h; exact readByte_finish (j0deriveSteps_keepsByte hs)
  | gcmcfg x => cases h; exact readByte_finish (gcmcfgSteps_keepsByte x hs)
  | gctr => cases h; exact readByte_finish (gctrSteps_keepsByte (hout (by decide)) hs)
  | gcmenc => cases h; exact readByte_finish (gcmencSteps_keepsByte (hout (by decide)) hs)
  | gcmdec => cases h; exact readByte_finish (gcmdecSteps_keepsByte (hout (by decide)) hs)

end Sys2Proof.Machine
end

section
/-! ### Command words: the fields of a word, the opcode map, decoding and encoding (R90 to R95) -/

namespace Sys2Proof.Machine

/-! #### The fields of a command word (R90) -/

section
variable (zero : BitVec 16) (arg opc : Byte)

@[simp] theorem zeroField_append : zeroField (zero ++ arg ++ opc) = zero :=
  (BitVec.extractLsb'_append_eq_of_le (by decide)).trans BitVec.extractLsb'_append_eq_left

@[simp] theorem argField_append : argField (zero ++ arg ++ opc) = arg :=
  (BitVec.extractLsb'_append_eq_of_le (by decide)).trans BitVec.extractLsb'_append_eq_right

@[simp] theorem opcField_append : opcField (zero ++ arg ++ opc) = opc := BitVec.extractLsb'_append_eq_right

end

/-- The three fields are the whole word. -/
theorem fields_append (w : Word) : zeroField w ++ argField w ++ opcField w = w := by
  have hupper : zeroField w ++ argField w = w.extractLsb' 8 24 :=
    BitVec.extractLsb'_append_extractLsb'_eq_extractLsb' (by rfl)
  have hword : w.extractLsb' 8 24 ++ opcField w = w.extractLsb' 0 32 :=
    BitVec.extractLsb'_append_extractLsb'_eq_extractLsb' (by rfl)
  rw [hupper, hword, BitVec.extractLsb'_eq_self]

theorem argField_toNat (w : Word) : (argField w).toNat = w.toNat / 256 % 256 := by
  simp [argField, BitVec.extractLsb'_toNat, Nat.shiftRight_eq_div_pow]

@[simp] theorem zeroField_encode (i : Instr) : zeroField (encode i) = 0 := zeroField_append ..
@[simp] theorem argField_encode (i : Instr) : argField (encode i) = argOf i := argField_append ..
@[simp] theorem opcField_encode (i : Instr) : opcField (encode i) = opcodeOf i := opcField_append ..

/-! #### The opcode map (R92, R93) -/

/-- The twelve opcodes of R92. -/
def opcodes : List Byte :=
  [0x00#8, 0x01#8, 0x02#8, 0x03#8, 0x10#8, 0x11#8, 0x12#8, 0x13#8, 0x20#8, 0x21#8, 0x22#8, 0x3F#8]

theorem opcodeOf_mem_opcodes (i : Instr) : opcodeOf i ∈ opcodes := by
  cases i with
  | gcmcfg t => exact (by decide : 0x20#8 ∈ opcodes)
  | _ => decide

/-- Only GCMCFG has an ARG (R90). -/
theorem opcodeOf_eq_or_argOf_eq_zero (i : Instr) : opcodeOf i = 0x20 ∨ argOf i = 0 := by
  cases i with
  | gcmcfg t => exact .inl rfl
  | _ => exact .inr rfl

theorem instrOf_of_mem {opc : Byte} (h : opc ∈ opcodes) (arg : Byte) : ∃ i, instrOf opc arg = some i := by
  simp only [opcodes, List.mem_cons, List.not_mem_nil, or_false] at h
  rcases h with rfl | rfl | rfl | rfl | rfl | rfl | rfl | rfl | rfl | rfl | rfl | rfl <;> exact ⟨_, rfl⟩

/-- The map reads the row of a well-formed instruction back. -/
theorem instrOf_opcodeOf_argOf {i : Instr} (h : i.WellFormed) : instrOf (opcodeOf i) (argOf i) = some i := by
  cases i with
  | gcmcfg t =>
    have ht : (BitVec.ofNat 8 t).toNat = t := Nat.mod_eq_of_lt (of_decide_eq_true h)
    exact congrArg (fun arg => some (Instr.gcmcfg arg)) ht
  | _ => rfl

/-- What the map answers is well-formed and stands in the row of its opcode. -/
theorem wellFormed_and_opcodeOf_of_instrOf {opc arg : Byte} {i : Instr} (h : instrOf opc arg = some i) :
    i.WellFormed ∧ opcodeOf i = opc := by
  unfold instrOf at h
  split at h <;> cases h
  case h_9 hopc => exact ⟨decide_eq_true arg.isLt, BitVec.eq_of_toNat_eq hopc.symm⟩
  all_goals exact ⟨rfl, BitVec.eq_of_toNat_eq (Eq.symm ‹_›)⟩

/-- GCMCFG's tag length is ARG, and every other command has ARG = 0. -/
theorem argOf_of_instrOf {opc arg : Byte} {i : Instr} (h : instrOf opc arg = some i) (harg : opc = 0x20 ∨ arg = 0) :
    argOf i = arg := by
  obtain rfl | hopc := eq_or_ne opc 0x20
  · cases h
    exact (BitVec.ofNat_toNat 8 arg).trans (BitVec.setWidth_eq arg)
  · obtain ⟨-, rfl⟩ := wellFormed_and_opcodeOf_of_instrOf h
    rw [(opcodeOf_eq_or_argOf_eq_zero i).resolve_left hopc, harg.resolve_left hopc]

/-! #### Decoding and encoding -/

/-- A word decodes when it passes the three tests of R91. -/
theorem decodeWord_eq_instr_iff {w : Word} {i : Instr} :
    decodeWord w = .instr i ↔
      zeroField w = 0 ∧ instrOf (opcField w) (argField w) = some i ∧ (opcField w = 0x20 ∨ argField w = 0) := by
  have htest : (opcField w = 0x20 ∨ argField w = 0) ↔ ¬(opcField w ≠ 0x20 ∧ argField w ≠ 0) := by
    rw [not_and_or, not_not, not_not]
  rw [htest]
  unfold decodeWord
  split_ifs with hzero harg
  · exact ⟨nofun, fun ⟨hz, _⟩ => absurd hz hzero⟩
  · exact ⟨by split <;> nofun, fun ⟨_, _, ha⟩ => absurd harg ha⟩
  · rw [and_iff_right (not_not.1 hzero), and_iff_left harg]
    cases instrOf (opcField w) (argField w) with
    | none => exact ⟨nofun, nofun⟩
    | some j => exact ⟨fun h => congrArg some (Decoded.instr.inj h), fun h => congrArg Decoded.instr (Option.some.inj h)⟩

theorem decodeWord_rejected_of_ne_instr {w : Word} (h : ∀ i, decodeWord w ≠ .instr i) : ∃ e, decodeWord w = .rejected e := by
  cases hd : decodeWord w with
  | instr i => exact absurd hd (h i)
  | rejected e => exact ⟨e, rfl⟩

/-- The words that decode are the words of the well-formed instructions. -/
theorem decodeWord_eq_instr_iff_encode {w : Word} {i : Instr} : decodeWord w = .instr i ↔ i.WellFormed ∧ encode i = w := by
  rw [decodeWord_eq_instr_iff]
  constructor
  · rintro ⟨hzero, hinstr, harg⟩
    obtain ⟨hwf, hopc⟩ := wellFormed_and_opcodeOf_of_instrOf hinstr
    refine ⟨hwf, ?_⟩
    rw [← fields_append w, hzero, ← argOf_of_instrOf hinstr harg, ← hopc]
    rfl
  · rintro ⟨hwf, rfl⟩
    simpa [instrOf_opcodeOf_argOf hwf] using opcodeOf_eq_or_argOf_eq_zero i

/-- Settles O9: the fields of the word are the instruction's own, and the opcode map reads its row back. -/
theorem decodeOfEncodeIsTheInstruction : Obligations.DecodeOfEncodeIsTheInstruction :=
  fun _ h => decodeWord_eq_instr_iff_encode.2 ⟨h, rfl⟩

/-- Settles O10: a word is its three fields, and a decoded instruction has the word's. -/
theorem encodeOfDecodeIsTheWord : Obligations.EncodeOfDecodeIsTheWord :=
  fun _ _ h => decodeWord_eq_instr_iff_encode.1 h

/-- Settles O11: each word evaluates. -/
theorem writtenOutWordsDecode : Obligations.WrittenOutWordsDecode := by
  unfold Obligations.WrittenOutWordsDecode
  decide

/-! #### The rows by match and mask (R92, R93) -/

/-- A row whose mask is the whole word: the word is that of the instruction. -/
theorem decodeWord_iff_match {w : Word} {i : Instr} (h : i.WellFormed) :
    decodeWord w = .instr i ↔ w &&& 0xFFFFFFFF = encode i := by
  have hmask : w &&& 0xFFFFFFFF = w := BitVec.and_allOnes
  rw [decodeWord_eq_instr_iff_encode, and_iff_right h, hmask, eq_comm]

/-- GCMCFG's mask leaves ZERO and OPC. -/
theorem and_gcmcfg_mask (w : Word) : w &&& 0xFFFF00FF = zeroField w ++ 0#8 ++ opcField w := by
  have hmask : (0xFFFF00FF : Word) = BitVec.allOnes 16 ++ 0#8 ++ BitVec.allOnes 8 := by decide
  conv_lhs => rw [← fields_append w, hmask]
  rw [BitVec.and_append, BitVec.and_append, BitVec.and_allOnes, BitVec.and_zero, BitVec.and_allOnes]

theorem gcmcfg_match_iff {w : Word} : w &&& 0xFFFF00FF = 0x20 ↔ zeroField w = 0 ∧ opcField w = 0x20 := by
  rw [and_gcmcfg_mask]
  constructor
  · intro h
    have hzero := congrArg zeroField h
    have hopc := congrArg opcField h
    rw [zeroField_append] at hzero
    rw [opcField_append] at hopc
    exact ⟨hzero, hopc⟩
  · rintro ⟨hz, ho⟩
    rw [hz, ho]
    rfl

theorem decodeWord_iff_gcmcfg {w : Word} {t : Nat} :
    decodeWord w = .instr (.gcmcfg t) ↔ w &&& 0xFFFF00FF = 0x20 ∧ t = w.toNat / 256 % 256 := by
  rw [gcmcfg_match_iff, ← argField_toNat, decodeWord_eq_instr_iff]
  constructor
  · rintro ⟨hzero, hinstr, -⟩
    have hopc : (0x20 : Byte) = opcField w := (wellFormed_and_opcodeOf_of_instrOf hinstr).2
    rw [← hopc] at hinstr
    cases hinstr
    exact ⟨⟨hzero, hopc.symm⟩, rfl⟩
  · rintro ⟨⟨hzero, hopc⟩, rfl⟩
    rw [hopc]
    exact ⟨hzero, rfl, .inl rfl⟩

/-- Settles O8: GCMCFG's row leaves ARG free, every other row fixes the word. -/
theorem wordSelectsItsRowByMatchAndMask : Obligations.WordSelectsItsRowByMatchAndMask := by
  intro w i
  cases i with
  | gcmcfg t => exact decodeWord_iff_gcmcfg
  | _ => exact decodeWord_iff_match rfl

/-! #### A CMD write decodes or raises E_CMD (R91) -/

theorem command_of_rejected {w : Word} {e : DecodeError} (h : decodeWord w = .rejected e) (s : State) :
    command w s = .next (raise .eCmd s) := by
  simp only [command, h]

/-- Settles O6: a word that fails one of the three tests decodes to no instruction, so E_CMD is raised; one that passes
them all has an opcode of the map. -/
theorem commandWriteDecodesOrRaisesECmd : Obligations.CommandWriteDecodesOrRaisesECmd := by
  intro s w rest hhost illegal
  rw [step_of_cmd_write hhost]
  constructor
  · intro hill
    have hnone (i : Instr) : decodeWord w ≠ .instr i := by
      intro hd
      obtain ⟨hzero, hinstr, harg⟩ := decodeWord_eq_instr_iff.1 hd
      have hmem : opcField w ∈ opcodes := (wellFormed_and_opcodeOf_of_instrOf hinstr).2 ▸ opcodeOf_mem_opcodes i
      rcases hill with hz | ho | ⟨ho, ha⟩
      · exact hz hzero
      · exact ho hmem
      · exact harg.elim ho ha
    obtain ⟨e, he⟩ := decodeWord_rejected_of_ne_instr hnone
    exact command_of_rejected he _
  · intro hlegal
    simp only [illegal, not_or, not_and_or, not_not] at hlegal
    obtain ⟨hzero, hmem, harg⟩ := hlegal
    obtain ⟨i, hinstr⟩ := instrOf_of_mem hmem (argField w)
    have hd : decodeWord w = .instr i := decodeWord_eq_instr_iff.2 ⟨hzero, hinstr, harg⟩
    exact ⟨i, hd, (wellFormed_and_opcodeOf_of_instrOf hinstr).2, argOf_of_instrOf hinstr harg, command_of_decodes hd _⟩

end Sys2Proof.Machine
end

section
/-! ### The field laws of the multiplier (R110, R111) -/

namespace Sys2Proof.Machine

open Polynomial

/-! #### A block is known by its residue -/

theorem bitsPoly_coeff (n : Nat) (c : Nat → Bool) (j : Nat) :
    (bitsPoly n c).coeff j = if j < n ∧ c j = true then 1 else 0 := by
  have hterm (i : Nat) : (if c i = true then X ^ i else 0 : (ZMod 2)[X]).coeff j =
      if j = i then if c j = true then 1 else 0 else 0 := by
    obtain rfl | hne := eq_or_ne j i
    · simp [apply_ite (coeff · j)]
    · simp [apply_ite (coeff · j), coeff_X_pow, hne]
  simp only [bitsPoly, finsetSum_coeff, hterm, Finset.sum_ite_eq, Finset.mem_range, ite_and]

theorem blockPoly_degree_lt (b : Block) : (blockPoly b).degree < (128 : ℕ) :=
  (degree_lt_iff_coeff_zero _ 128).2 fun j hj => by
    rw [blockPoly, bitsPoly_coeff, if_neg fun ⟨hlt, _⟩ => absurd hlt (Nat.not_lt.2 hj)]

/-- A bit of the block is a coefficient of its polynomial. -/
theorem getLsbD_iff_blockPoly_coeff (b : Block) {i : Nat} (hi : i < 128) :
    b.getLsbD i = true ↔ (blockPoly b).coeff (127 - i) = 1 := by
  have hlt : 127 - i < 128 := by omega
  have hplace : 127 - (127 - i) = i := by omega
  simp [blockPoly, bitsPoly_coeff, hlt, hplace]

theorem blockPoly_injective : Function.Injective blockPoly := by
  intro a b h
  refine BitVec.eq_of_getLsbD_eq fun i hi => ?_
  rw [Bool.eq_iff_iff, getLsbD_iff_blockPoly_coeff a hi, getLsbD_iff_blockPoly_coeff b hi, h]

theorem gfModulus_eq : gfModulus = X ^ 128 + blockPoly gfR := by
  rw [blockPoly_gfR]
  unfold gfModulus
  ring

theorem gfModulus_degree : gfModulus.degree = (128 : ℕ) := by
  have hX : (X ^ 128 : (ZMod 2)[X]).degree = (128 : ℕ) := degree_X_pow 128
  have hR := (blockPoly_degree_lt gfR).trans_eq hX.symm
  rw [gfModulus_eq, degree_add_eq_left_of_degree_lt hR, hX]

/-- Two blocks with one residue differ by a multiple of the modulus of lower degree than the modulus. -/
theorem residue_blockPoly_injective : Function.Injective fun b => residue (blockPoly b) := by
  intro a b h
  have hdvd : gfModulus ∣ blockPoly a - blockPoly b := AdjoinRoot.mk_eq_mk.1 h
  have hdiff : blockPoly a - blockPoly b = blockPoly (a ^^^ b) := by rw [blockPoly_xor, CharTwo.sub_eq_add]
  have hlt := (blockPoly_degree_lt (a ^^^ b)).trans_eq gfModulus_degree.symm
  rw [hdiff] at hdvd
  exact blockPoly_injective (sub_eq_zero.1 (hdiff.trans (eq_zero_of_dvd_of_degree_lt hdvd hlt)))

/-- The block with bit 127 - k alone is x^k. -/
theorem blockPoly_twoPow {k : Nat} (hk : k < 128) : blockPoly (BitVec.twoPow 128 (127 - k)) = X ^ k := by
  ext j
  rw [blockPoly, bitsPoly_coeff, coeff_X_pow, BitVec.getLsbD_twoPow]
  refine if_congr ?_ rfl rfl
  simp only [Bool.and_eq_true, decide_eq_true_iff]
  omega

/-! #### The laws -/

theorem gfmul_comm (a b : Block) : gfmul a b = gfmul b a :=
  residue_blockPoly_injective <| by simp only [residue_gfmul, mul_comm]

theorem gfmul_assoc (a b c : Block) : gfmul (gfmul a b) c = gfmul a (gfmul b c) :=
  residue_blockPoly_injective <| by simp only [residue_gfmul, map_mul, mul_assoc]

theorem gfmul_xor (a b c : Block) : gfmul (a ^^^ b) c = gfmul a c ^^^ gfmul b c :=
  residue_blockPoly_injective <| by simp only [residue_gfmul, blockPoly_xor, map_add, map_mul, add_mul]

theorem gfmul_zero (a : Block) : gfmul a 0 = 0 :=
  residue_blockPoly_injective <| by simp only [residue_gfmul, blockPoly_zero, mul_zero]

theorem gfmul_one (a : Block) : gfmul a (BitVec.twoPow 128 127) = a :=
  residue_blockPoly_injective <| by
    simp only [residue_gfmul, blockPoly_twoPow (k := 0) (by decide), pow_zero, mul_one]

/-- Multiplication by x is one step of the ladder on V. -/
theorem gfmul_x (a : Block) : gfmul (BitVec.twoPow 128 126) a = gfShift a :=
  residue_blockPoly_injective <| by
    simp only [residue_gfmul, residue_gfShift, blockPoly_twoPow (k := 1) (by decide), pow_one]

/-- Settles O50: a block is known by its residue, where `gfmul` is the product and exclusive or the sum. -/
theorem gfmulFieldLaws : Obligations.GfmulFieldLaws := by
  have hshift (a : Block) : (a.getLsbD 0 = false → gfShift a = a >>> 1) ∧
      (a.getLsbD 0 = true → gfShift a = (a >>> 1) ^^^ gfR) :=
    ⟨fun h => if_neg (ne_true_of_eq_false h), fun h => if_pos h⟩
  have hone : (0x80000000000000000000000000000000 : Block) = BitVec.twoPow 128 127 := by decide
  have hx : (0x40000000000000000000000000000000 : Block) = BitVec.twoPow 128 126 := by decide
  unfold Obligations.GfmulFieldLaws
  intro one xp r
  refine ⟨gfmul_comm, fun a => ⟨gfmul_zero a, (gfmul_comm 0 a).trans (gfmul_zero a)⟩, fun a => ?_, gfmul_xor, fun a => ?_,
    gfmul_assoc⟩
  · exact (congrArg (gfmul a) hone).trans (gfmul_one a)
  · have hmul : gfmul xp a = gfShift a := (congrArg (gfmul · a) hx).trans (gfmul_x a)
    rw [hmul]
    exact hshift a

end Sys2Proof.Machine
end

section
/-! ### The GHASH unit: GHINIT, GHBLK, GHASH (R113, R114, R116, R118, R119) -/

namespace Sys2Proof.Machine

theorem exec_ghinit (s : State) : exec .ghinit s = .next { s with y := 0, status := statusOk } := rfl

theorem exec_ghblk (s : State) : exec .ghblk s = .next { s with y := gfmul (s.y ^^^ s.din) s.h, status := statusOk } := rfl

theorem exec_ghash_of_steps {s : State} {p : Progress} (h : ghashSteps s = p) : exec .ghash s = .next p.finish := h ▸ rfl

/-- GHASH checks the length first. -/
theorem exec_ghash_of_unaligned {s : State} (h : s.len.toNat % 16 ≠ 0) :
    exec .ghash s = .next { s with status := statusError .eAlign } :=
  exec_ghash_of_steps (if_pos h)

theorem exec_ghash_of_invalid {s : State} (halign : s.len.toNat % 16 = 0) (hv : ¬ValidRange s.memSize s.srcaddr s.len) :
    exec .ghash s = .next { s with status := statusError .eRange } := by
  have hsteps : ghashSteps s = .raised .eRange s := by
    rw [ghashSteps, if_neg (not_not.2 halign), requireRange_of_invalid hv, andThen_raised]
  exact exec_ghash_of_steps hsteps

theorem exec_ghash_of_valid {s : State} (halign : s.len.toNat % 16 = 0) (hv : ValidRange s.memSize s.srcaddr s.len) :
    exec .ghash s = .next { s with y := ghashH s.h (buffer s s.srcaddr s.len), status := statusOk } :=
  exec_ghash_of_steps (ghashSteps_of_valid halign hv)

/-- Settles O23: by GHINIT's word and its meaning. -/
theorem ghinitClearsTheAccumulator : Obligations.GhinitClearsTheAccumulator := ⟨by decide, exec_ghinit⟩

/-- Settles O24: by GHBLK's word and its meaning. -/
theorem ghblkAbsorbsDin : Obligations.GhblkAbsorbsDin := ⟨by decide, exec_ghblk⟩

/-- Settles O25: GHBLK after GHINIT multiplies 0 ^ DIN, which is DIN. -/
theorem ghinitThenGhblkMultipliesDinByH : Obligations.GhinitThenGhblkMultipliesDinByH := by
  intro s
  have hxor : (0 : Block) ^^^ s.din = s.din := BitVec.zero_xor
  refine ⟨_, exec_ghinit s, ?_⟩
  simp only [exec_ghblk, hxor, statusOk]

/-- Settles O26: by GHASH's word and its three endings. -/
theorem ghashHashesTheSourceBuffer : Obligations.GhashHashesTheSourceBuffer :=
  ⟨by decide, fun _ => ⟨exec_ghash_of_unaligned, exec_ghash_of_invalid, exec_ghash_of_valid⟩⟩

/-- Each of GHASH's endings writes Y and STATUS at most. -/
theorem exec_ghash_frame (s : State) : ∃ t, exec .ghash s = .next t ∧ t = { s with y := t.y, status := t.status } := by
  by_cases halign : s.len.toNat % 16 = 0
  · by_cases hv : ValidRange s.memSize s.srcaddr s.len
    · exact ⟨_, exec_ghash_of_valid halign hv, rfl⟩
    · exact ⟨_, exec_ghash_of_invalid halign hv, rfl⟩
  · exact ⟨_, exec_ghash_of_unaligned halign, rfl⟩

/-- Settles O44: by the states the three commands end in; those of GHINIT and GHBLK do not look at MEM. -/
theorem ghashUnitIsPure : Obligations.GhashUnitIsPure := by
  refine ⟨fun i hi s => ?_, fun i hi s t m h => ?_⟩
  · simp only [List.mem_cons, List.not_mem_nil, or_false] at hi
    obtain rfl | rfl | rfl := hi
    · exact ⟨_, exec_ghinit s, rfl⟩
    · exact ⟨_, exec_ghblk s, rfl⟩
    · exact exec_ghash_frame s
  · simp only [List.mem_cons, List.not_mem_nil, or_false] at hi
    obtain rfl | rfl := hi
    · cases h; exact exec_ghinit _
    · cases h; exact exec_ghblk _

end Sys2Proof.Machine
end

section
/-! ### How many Cipher calls a command makes (R260) -/

namespace Sys2Proof.Machine

/-- `t` comes from `s` by `n` Cipher calls and keeps the text's length, which fixes the number of chunks. -/
def CallsMade (s : State) (n : Nat) (t : State) : Prop :=
  t.len = s.len ∧ t.cipher.calls.length = s.cipher.calls.length + n

/-- The errors after which the calls are not counted: every one a command can raise but E_AUTH. -/
abbrev ErrorCode.Uncounted (e : ErrorCode) : Prop := errorCode e ∈ [1#4, 2#4, 3#4, 6#4]

/-- Micro-steps that go on have made `n` calls since `s`; the errors they raise are not counted. -/
abbrev Progress.MakesCalls (s : State) (n : Nat) (p : Progress) : Prop := p.Holds (CallsMade s n) fun e _ => e.Uncounted

theorem uncounted_eTaglen : ErrorCode.eTaglen.Uncounted := by decide

theorem uncounted_eAlign : ErrorCode.eAlign.Uncounted := by decide

theorem uncounted_eRange : ErrorCode.eRange.Uncounted := by decide

theorem uncounted_ePrim : ErrorCode.ePrim.Uncounted := by decide

theorem callsMade_zero (s : State) : CallsMade s 0 s := ⟨rfl, rfl⟩

section
variable {s t : State} {k : Nat}

/-- A Cipher call is counted, whatever the other changes. -/
theorem callsMade_succ (h : CallsMade s k t) {u : State} {b : Block} (hlen : u.len = t.len)
    (hcipher : u.cipher = afterCalls t.cipher [b]) : CallsMade s (k + 1) u := by
  obtain ⟨hl, hc⟩ := h
  refine ⟨hlen.trans hl, ?_⟩
  rw [hcipher, afterCalls, List.length_append, hc]
  rfl

theorem requireRange_makesCalls (a n : Word) (h : CallsMade s k t) : (requireRange a n t).MakesCalls s k := by
  unfold requireRange
  split_ifs
  · exact h
  · exact uncounted_eRange

theorem checkBuffers_makesCalls (h : CallsMade s k t) : (checkBuffers t).MakesCalls s k := by
  by_cases hv : BuffersValid t
  · rw [checkBuffers_of_valid hv]; exact h
  · rw [checkBuffers_of_invalid hv]; exact uncounted_eRange

theorem absorbBuffer_callsMade (a n : Word) (h : CallsMade s k t) : CallsMade s k (absorbBuffer a n t) := by
  rw [absorbBuffer_eq]; exact h

theorem deriveJ0_callsMade (a n : Word) (h : CallsMade s k t) : CallsMade s k (deriveJ0 a n t) := by
  rw [deriveJ0_eq]; exact h

theorem absorbLengths_callsMade (h : CallsMade s k t) : CallsMade s k (absorbLengths t) := h

theorem ghashSteps_makesCalls (h : CallsMade s k t) : (ghashSteps t).MakesCalls s k := by
  unfold ghashSteps
  split_ifs
  · exact uncounted_eAlign
  · exact holds_andThen (requireRange_makesCalls _ _ h) fun _ hu => absorbBuffer_callsMade _ _ hu

theorem gcmcfgSteps_makesCalls (x : Nat) (h : CallsMade s k t) : (gcmcfgSteps x t).MakesCalls s k := by
  unfold gcmcfgSteps
  split_ifs
  · exact h
  · exact uncounted_eTaglen

theorem j0deriveSteps_makesCalls (h : CallsMade s k t) : (j0deriveSteps t).MakesCalls s k :=
  holds_andThen (requireRange_makesCalls _ _ h) fun _ hu => deriveJ0_callsMade _ _ hu

theorem deriveH_makesCalls (h : CallsMade s k t) : (deriveH t).MakesCalls s (k + 1) :=
  holds_withCipher (fun _ => uncounted_ePrim) fun _ => callsMade_succ h rfl rfl

theorem beginMessage_makesCalls (h : CallsMade s k t) : (beginMessage t).MakesCalls s (k + 1) :=
  holds_andThen (deriveH_makesCalls h) fun _ hu => absorbBuffer_callsMade _ _ (deriveJ0_callsMade _ _ hu)

/-- The tag step makes one call before the micro-steps that use the tag. -/
theorem withFullTag_makesCalls {P : State → Prop} {Q : ErrorCode → State → Prop} {next : Block → State → Progress}
    (h : CallsMade s k t) (hQ : ∀ u, Q .ePrim u) (hn : ∀ full u, CallsMade s (k + 1) u → (next full u).Holds P Q) :
    (withFullTag t next).Holds P Q := by
  unfold withFullTag
  exact holds_withCipher (fun _ => hQ _) fun _ => hn _ _ (callsMade_succ h rfl rfl)

/-- A loop whose iterations make one call each. -/
theorem forChunks_makesCalls {body : Nat → State → Progress}
    (hb : ∀ i k t, CallsMade s k t → (body i t).MakesCalls s (k + 1)) (n : Nat) (h : CallsMade s k t) :
    (forChunks body 0 n t).MakesCalls s (k + n) := by
  have hloop := holds_forChunks (I := fun i => CallsMade s (k + i)) (fun i u hu => hb i (k + i) u hu) n 0 t h
  rwa [Nat.zero_add] at hloop

theorem gctrChunk_makesCalls (src dst n i : Nat) (h : CallsMade s k t) :
    (gctrChunk src dst n i t).MakesCalls s (k + 1) := by
  unfold gctrChunk
  exact holds_withCipher (fun _ => uncounted_ePrim) fun _ => callsMade_succ h rfl rfl

theorem gcmencChunk_makesCalls (i : Nat) (h : CallsMade s k t) : (gcmencChunk i t).MakesCalls s (k + 1) := by
  unfold gcmencChunk
  exact holds_withCipher (fun _ => uncounted_ePrim) fun _ => callsMade_succ h rfl rfl

/-! Both loops run from any CB, for GCMENC and GCMDEC set it just before. -/

theorem gctrRun_makesCalls (src dst : Word) (cb : Block) (h : CallsMade s k t) :
    (gctrRun src dst t.len { t with cb := cb }).MakesCalls s (k + nchunks s.len.toNat) := by
  obtain ⟨hlen, -⟩ := id h
  rw [← hlen]
  exact forChunks_makesCalls (fun i _ _ hu => gctrChunk_makesCalls _ _ _ i hu) _ (by exact h)

theorem gcmencLoop_makesCalls (cb : Block) (h : CallsMade s k t) :
    (forChunks gcmencChunk 0 (nchunks t.len.toNat) { t with cb := cb }).MakesCalls s (k + nchunks s.len.toNat) := by
  obtain ⟨hlen, -⟩ := id h
  rw [← hlen]
  exact forChunks_makesCalls (fun i _ _ hu => gcmencChunk_makesCalls i hu) _ (by exact h)

theorem gctrSteps_makesCalls (h : CallsMade s k t) : (gctrSteps t).MakesCalls s (k + nchunks s.len.toNat) :=
  holds_andThen (requireRange_makesCalls _ _ h) fun _ hu =>
    holds_andThen (requireRange_makesCalls _ _ hu) fun _ hv => gctrRun_makesCalls _ _ _ hv

/-- GCMENC: one call for H, one per chunk, one for the tag (R174). -/
theorem gcmencSteps_makesCalls (h : CallsMade s k t) : (gcmencSteps t).MakesCalls s (k + 1 + nchunks s.len.toNat + 1) :=
  holds_andThen (checkBuffers_makesCalls h) fun _ hu =>
    holds_andThen (beginMessage_makesCalls hu) fun _ hv =>
      holds_andThen (gcmencLoop_makesCalls _ hv) fun _ hw =>
        withFullTag_makesCalls (absorbLengths_callsMade hw) (fun _ => uncounted_ePrim) fun _ _ hx => hx

/-- GCMDEC's endings: its errors are not counted, but for E_AUTH, which comes after the calls for H and for the tag (R180). -/
abbrev AuthOrUncounted (s : State) (n : Nat) (e : ErrorCode) (t : State) : Prop :=
  e.Uncounted ∨ e = .eAuth ∧ CallsMade s n t

theorem holds_authOrUncounted {n m : Nat} {p : Progress} (h : p.MakesCalls s n) :
    p.Holds (CallsMade s n) (AuthOrUncounted s m) := holds_mono h (fun _ hu => hu) fun _ _ he => .inl he

theorem requireTag_holds (full : Block) (h : CallsMade s k t) :
    (requireTag full t).Holds (CallsMade s k) (AuthOrUncounted s k) := by
  unfold requireTag
  split_ifs
  · exact .inr ⟨rfl, h⟩
  · exact h

/-- GCMDEC: one call for H, one for the tag, and on a match one per chunk (R180). -/
theorem gcmdecSteps_holds (h : CallsMade s k t) :
    (gcmdecSteps t).Holds (CallsMade s (k + 2 + nchunks s.len.toNat)) (AuthOrUncounted s (k + 2)) :=
  holds_andThen (holds_authOrUncounted (checkBuffers_makesCalls h)) fun _ hu =>
    holds_andThen (holds_authOrUncounted (beginMessage_makesCalls hu)) fun _ hv =>
      withFullTag_makesCalls (absorbLengths_callsMade (absorbBuffer_callsMade _ _ hv)) (fun _ => .inl uncounted_ePrim) fun full _ hw =>
        holds_andThen (requireTag_holds full hw) fun _ hx =>
          holds_authOrUncounted (gctrRun_makesCalls _ _ _ hx)

/-- A command whose errors are not counted has made its calls when it ends otherwise. -/
theorem calls_of_finish {n : Nat} {p : Progress} (hp : p.MakesCalls s n)
    (h : p.finish.status.errcode ∉ [1#4, 2#4, 3#4, 6#4]) :
    p.finish.cipher.calls.length - s.cipher.calls.length = n := by
  cases p with
  | running u =>
    obtain ⟨-, hcalls⟩ := hp
    exact Nat.sub_eq_of_eq_add' hcalls
  | raised e u => exact absurd hp h

/-- The same of GCMDEC, where E_AUTH has a number of its own. -/
theorem calls_of_finish_auth {n m : Nat} {p : Progress} (hp : p.Holds (CallsMade s n) (AuthOrUncounted s m))
    (h : p.finish.status.errcode ∉ [1#4, 2#4, 3#4, 6#4]) :
    p.finish.cipher.calls.length - s.cipher.calls.length = if p.finish.status.errcode = 5 then m else n := by
  cases p with
  | running u =>
    obtain ⟨-, hcalls⟩ := hp
    exact Nat.sub_eq_of_eq_add' hcalls
  | raised e u =>
    obtain ⟨rfl, -, hcalls⟩ := hp.resolve_left h
    exact Nat.sub_eq_of_eq_add' hcalls

end

/-- Settles O49: the calls of each micro-step added up. -/
theorem cipherCallsAreCounted : Obligations.CipherCallsAreCounted := by
  intro i s t h herr
  have hs := callsMade_zero s
  cases i with
  | nop => cases h; exact Nat.sub_self _
  | ghinit => cases h; exact Nat.sub_self _
  | ghblk => cases h; exact Nat.sub_self _
  | inc32 => cases h; exact Nat.sub_self _
  | sreset => cases h; exact Nat.sub_self _
  | ghash => cases h; exact calls_of_finish (ghashSteps_makesCalls hs) herr
  | j0derive => cases h; exact calls_of_finish (j0deriveSteps_makesCalls hs) herr
  | gcmcfg x => cases h; exact calls_of_finish (gcmcfgSteps_makesCalls x hs) herr
  | hderive => cases h; exact calls_of_finish (deriveH_makesCalls hs) herr
  | gctr => cases h; exact (calls_of_finish (gctrSteps_makesCalls hs) herr).trans (Nat.zero_add _)
  | gcmenc => cases h; exact (calls_of_finish (gcmencSteps_makesCalls hs) herr).trans (by omega)
  | gcmdec =>
    cases h
    have hcalls := calls_of_finish_auth (gcmdecSteps_holds hs) herr
    rw [Nat.zero_add, Nat.add_comm] at hcalls
    exact hcalls

end Sys2Proof.Machine
end

section
/-! ### The GCM primitives: HDERIVE, J0DERIVE, INC32, and the pure functions `inc32`, `GCTR_fn`, `lenblock` (R140 to R149) -/

namespace Sys2Proof.Machine

/-! #### HDERIVE, J0DERIVE, INC32 -/

section
variable {s : State}

theorem deriveH_of_answer (h : callFails s.cipher 0 = false) :
    deriveH s = .running { s with h := encryptBlock s.cipher 0, cipher := afterCalls s.cipher [0] } :=
  withCipher_of_answer _ h

theorem deriveH_of_fail (h : callFails s.cipher 0 = true) :
    deriveH s = .raised .ePrim { s with cipher := afterCalls s.cipher [0] } :=
  withCipher_of_fail _ h

theorem exec_hderive_of_steps {p : Progress} (h : deriveH s = p) : exec .hderive s = .next p.finish := h ▸ rfl

theorem exec_hderive_of_answer (h : callFails s.cipher 0 = false) :
    exec .hderive s = .next { s with
      h := encryptBlock s.cipher 0, cipher := afterCalls s.cipher [0], status := statusOk } :=
  exec_hderive_of_steps (deriveH_of_answer h)

theorem exec_hderive_of_fail (h : callFails s.cipher 0 = true) :
    exec .hderive s = .next { s with cipher := afterCalls s.cipher [0], status := statusError .ePrim } :=
  exec_hderive_of_steps (deriveH_of_fail h)

theorem exec_j0derive_of_steps {p : Progress} (h : j0deriveSteps s = p) : exec .j0derive s = .next p.finish := h ▸ rfl

theorem j0deriveSteps_of_valid (h : ValidRange s.memSize s.ivaddr s.ivlen) :
    j0deriveSteps s = .running { s with
      j0 := j0Of s.h (buffer s s.ivaddr s.ivlen)
      y := if s.ivlen = 12 then s.y else j0Of s.h (buffer s s.ivaddr s.ivlen) } := by
  rw [j0deriveSteps, requireRange_of_valid h, andThen_running, deriveJ0_eq]

theorem j0deriveSteps_of_invalid (h : ¬ValidRange s.memSize s.ivaddr s.ivlen) : j0deriveSteps s = .raised .eRange s := by
  rw [j0deriveSteps, requireRange_of_invalid h, andThen_raised]

end

/-- Settles O27: by HDERIVE's word and its two endings. -/
theorem hderiveEncryptsTheZeroBlock : Obligations.HderiveEncryptsTheZeroBlock :=
  ⟨by decide, fun _ => ⟨exec_hderive_of_answer, exec_hderive_of_fail⟩⟩

/-- Settles O28: the range check fails, or J0 is derived from the IV buffer. -/
theorem j0deriveDerivesThePreCounterBlock : Obligations.J0deriveDerivesThePreCounterBlock :=
  fun _ => ⟨fun h => exec_j0derive_of_steps (j0deriveSteps_of_invalid h),
    fun h => exec_j0derive_of_steps (j0deriveSteps_of_valid h)⟩

/-- Settles O29: by INC32's word and the definition of `inc32`. -/
theorem inc32IncrementsTheCounterBlock : Obligations.Inc32IncrementsTheCounterBlock := ⟨by decide, fun _ => rfl⟩

/-! #### `inc32` (R141) -/

theorem inc32_upper (b : Block) : (inc32 b).extractLsb' 32 96 = b.extractLsb' 32 96 := BitVec.extractLsb'_append_eq_left

theorem inc32_lower (b : Block) : (inc32 b).extractLsb' 0 32 = b.extractLsb' 0 32 + 1 := BitVec.extractLsb'_append_eq_right

/-- The two fields of `inc32` are the whole block. -/
theorem counterFields_append (b : Block) : b.extractLsb' 32 96 ++ b.extractLsb' 0 32 = b :=
  (BitVec.extractLsb'_append_extractLsb'_eq_extractLsb' (by rfl)).trans BitVec.extractLsb'_eq_self

/-- k increments add k to the lower field. -/
theorem inc32_iterate (b : Block) (k : Nat) :
    inc32^[k] b = b.extractLsb' 32 96 ++ (b.extractLsb' 0 32 + BitVec.ofNat 32 k) := by
  induction k with
  | zero => rw [Function.iterate_zero_apply, BitVec.add_zero, counterFields_append]
  | succ k ih =>
    have hk : BitVec.ofNat 32 (k + 1) = BitVec.ofNat 32 k + 1 := BitVec.ofNat_add _ _
    rw [Function.iterate_succ_apply', ih, inc32, BitVec.extractLsb'_append_eq_left, BitVec.extractLsb'_append_eq_right,
      BitVec.add_assoc, hk]

/-- Settles O53: `inc32` writes the lower field only, and 2^32 increments add 0 to it. -/
theorem inc32CountsModuloTwoToThe32 : Obligations.Inc32CountsModuloTwoToThe32 := by
  intro b
  have hwrap : BitVec.ofNat 32 (2 ^ 32) = 0#32 := by decide
  refine ⟨inc32_upper b, ?_, ?_⟩
  · rw [inc32_lower, BitVec.toNat_add]
    rfl
  · rw [inc32_iterate, hwrap, BitVec.add_zero, counterFields_append]

/-! #### `GCTR_fn` (R145) -/

section
variable (E : Block → Block) (cb : Block) (x : List Byte)

theorem gctrFn_length : (gctrFn E cb x).1.length = x.length := gctrChunks_length E _ cb x rfl

theorem gctrFn_counter : (gctrFn E cb x).2 = inc32^[nchunks x.length] cb := gctrChunks_counter E _ cb x

/-- A chunk is its own inverse under one keystream block. -/
theorem xorBytes_left_twice (s : List Byte) (hs : s.length ≤ 16) (ks : Block) :
    xorBytes (xorBytes s (left s.length ks)) (left s.length ks) = s :=
  xorBytes_xorBytes _ _ (by simp [hs])

/-- Chunk after chunk: the first chunk of the output gives the first chunk back, and the rest of it the rest. -/
theorem gctrChunks_gctrChunks : ∀ (k : Nat) (cb : Block) (x : List Byte), nchunks x.length = k →
    (gctrChunks E k cb (gctrChunks E k cb x).1).1 = x := by
  intro k
  induction k with
  | zero =>
    intro cb x h
    have hx : x = [] := List.length_eq_zero_iff.1 (by unfold nchunks at h; omega)
    rw [hx]
    rfl
  | succ k ih =>
    intro cb x h
    set s := x.take 16 with hs
    set out := xorBytes s (left s.length (E cb)) with hout
    set rest := (gctrChunks E k (inc32 cb) (x.drop 16)).1 with hrest
    have hsl : s.length = min 16 x.length := List.length_take
    have hol : out.length = s.length := by simp [hout]; omega
    have hrl : rest.length = x.length - 16 := (gctrChunks_length E k _ _ (nchunks_drop h)).trans List.length_drop
    have htake : (out ++ rest).take 16 = out := by
      rw [List.take_append, List.take_of_length_le (by omega),
        List.take_eq_nil_iff.2 (by rw [← List.length_eq_zero_iff]; omega), List.append_nil]
    have hdrop : (out ++ rest).drop 16 = rest := by
      rw [List.drop_append, List.drop_of_length_le (by omega), List.nil_append]
      by_cases h16 : 16 ≤ x.length
      · rw [show 16 - out.length = 0 by omega, List.drop_zero]
      · rw [List.length_eq_zero_iff.1 (show rest.length = 0 by omega), List.drop_nil]
    have hlast : (gctrChunks E (k + 1) cb (out ++ rest)).1 = s ++ x.drop 16 := by
      simp only [gctrChunks]
      rw [htake, hdrop, hol, xorBytes_left_twice s (by omega), ih _ _ (nchunks_drop h)]
    exact hlast.trans (List.take_append_drop 16 x)

theorem gctrFn_gctrFn : (gctrFn E cb (gctrFn E cb x).1).1 = x := by
  have h := gctrChunks_gctrChunks E _ cb x rfl
  rwa [← gctrFn, ← gctrFn_length E cb x] at h

end

/-- Settles O54: chunk after chunk the same keystream is added twice. -/
theorem gctrFnIsAnInvolution : Obligations.GctrFnIsAnInvolution :=
  fun E icb x => ⟨gctrFn_gctrFn E icb x, gctrFn_length E icb x, gctrFn_counter E icb x⟩

/-! #### The length block (R149) -/

theorem u64be_getD (n : Nat) {j : Nat} (hj : j < 8) : (u64be n).getD j 0 = BitVec.ofNat 8 (n >>> (56 - 8 * j)) := by
  simp [u64be, List.getD, hj]

/-- Bit i of a number is bit `i mod 8` of the byte `i / 8` places from the right of its string. -/
theorem u64be_testBit (n : Nat) {i : Nat} (hi : i < 64) : ((u64be n).getD (7 - i / 8) 0).getLsbD (i % 8) = n.testBit i := by
  have hbyte : i % 8 < 8 := Nat.mod_lt _ (by decide)
  have hplace : 56 - 8 * (7 - i / 8) + i % 8 = i := by omega
  rw [u64be_getD n (by omega), BitVec.getLsbD_ofNat, Nat.testBit_shiftRight, hplace, decide_eq_true hbyte, Bool.true_and]

/-- The block of two 8-byte strings is the two 64-bit numbers side by side. -/
theorem blk_u64be_append (m n : Nat) : blk (u64be m ++ u64be n) = BitVec.ofNat 64 m ++ BitVec.ofNat 64 n := by
  refine BitVec.eq_of_getLsbD_eq fun i hi => ?_
  have hbyte : i / 8 < (u64be m ++ u64be n).length := by simp; omega
  have hlast : (u64be m ++ u64be n).length - 1 = 15 := by simp
  rw [blk_getLsbD _ i hi, if_pos hbyte, hlast, BitVec.getLsbD_append, BitVec.getLsbD_ofNat, BitVec.getLsbD_ofNat]
  by_cases hlow : i < 64
  · have hplace : 15 - i / 8 - (u64be m).length = 7 - i / 8 := by rw [u64be_length]; omega
    rw [List.getD_append_right _ _ _ _ (by rw [u64be_length]; omega), hplace, u64be_testBit n hlow]
    simp [hlow]
  · have hplace : 15 - i / 8 = 7 - (i - 64) / 8 := by omega
    have hbit : i % 8 = (i - 64) % 8 := by omega
    rw [List.getD_append _ _ _ _ (by rw [u64be_length]; omega), hplace, hbit, u64be_testBit m (by omega)]
    simp [hlow]
    omega

/-- Settles O55: the bit counts of 32-bit lengths fit their 64-bit fields. -/
theorem lengthBlockHoldsTheBitCounts : Obligations.LengthBlockHoldsTheBitCounts := by
  intro a c ha hc
  have ha' : 8 * a % 2 ^ 64 = 8 * a := Nat.mod_eq_of_lt (by omega)
  have hc' : 8 * c % 2 ^ 64 = 8 * c := Nat.mod_eq_of_lt (by omega)
  rw [lenblock, blk_u64be_append, BitVec.toNat_append, BitVec.toNat_ofNat, BitVec.toNat_ofNat, ha', hc',
    ← Nat.shiftLeft_add_eq_or_of_lt (by omega), Nat.shiftLeft_eq]

end Sys2Proof.Machine
end

section
/-! ### GCTR: the chunk loop, where it ends and what it leaves in MEM (R145 to R147, R218, R250) -/

namespace Sys2Proof.Machine

/-! #### The calls still to come -/

/-- Some of the calls that answer have been made. -/
theorem cipherAnswers_afterCalls {s t : State} {bs : List Block} {k m : Nat} (ht : t.cipher = afterCalls s.cipher bs)
    (hc : CipherAnswers s m) (hk : bs.length + k ≤ m) : CipherAnswers t k := by
  intro j hj
  rw [ht, callFails_afterCalls]
  exact hc _ (by omega)

/-! #### The loop of `gctr_run` -/

section
variable {s : State} {k : Nat}

theorem gctrRun_of_answers (hc : CipherAnswers s (nchunks s.len.toNat)) :
    gctrRun s.srcaddr s.dstaddr s.len s = .running (gctrChunksEffect s (nchunks s.len.toNat)) :=
  gctrRun_eq_effect s _ hc

/-- The failing call of chunk k is made with the counter block of the chunks before it. -/
theorem gctrRun_of_fail (hk : k < nchunks s.len.toNat) (hc : CipherAnswers s k) (hf : callFails s.cipher k = true) :
    gctrRun s.srcaddr s.dstaddr s.len s = .raised .ePrim { gctrChunksEffect s k with
      cipher := afterCalls (gctrChunksEffect s k).cipher [inc32^[k] s.cb] } := by
  have hframe := gctrChunksEffect_frame s k
  have hcb : (gctrChunksEffect s k).cb = inc32^[k] s.cb := by rw [hframe]
  have hfail : callFails (gctrChunksEffect s k).cipher 0 = true := by rw [hframe]; simpa using hf
  rw [← hcb]
  exact forChunks_stops hk (gctrRun_eq_effect s k hc) (gctrChunk_of_fail _ _ _ _ _ hfail)

/-- The bytes written by the first k chunks. -/
def chunksDone (s : State) (k : Nat) : Nat := min (16 * k) s.len.toNat

/-- All chunks are all bytes. -/
theorem chunksDone_nchunks (s : State) : chunksDone s (nchunks s.len.toNat) = s.len.toNat := by
  unfold chunksDone nchunks; omega

/-- Address `a` lies outside the first k chunks of the destination. -/
abbrev OutsideChunks (s : State) (k a : Nat) : Prop := a < s.dstaddr.toNat ∨ s.dstaddr.toNat + chunksDone s k ≤ a

theorem outsideChunks_of_not_inRange {a : Nat} (h : ¬InRange a s.dstaddr s.len) :
    OutsideChunks s (nchunks s.len.toNat) a := by
  rw [OutsideChunks, chunksDone_nchunks]
  omega

/-- The first k chunks write the first k chunks of the destination only, and for identical or disjoint ranges these are the
first k chunks of `GCTR_fn` (R250). -/
theorem gctrChunksEffect_bytes (hk : k ≤ nchunks s.len.toNat) (hc : CipherAnswers s k) :
    (∀ a, OutsideChunks s k a → readByte (gctrChunksEffect s k) a = readByte s a) ∧
    (SameOrDisjoint s.srcaddr s.dstaddr s.len →
      memRead (gctrChunksEffect s k) s.dstaddr.toNat (chunksDone s k) =
        (gctrFn (encryptBlock s.cipher) s.cb (buffer s s.srcaddr s.len)).1.take (chunksDone s k)) := by
  obtain ⟨t, hrun, -, hout, hdst⟩ := gctrRun_chunks s.srcaddr.toNat s.dstaddr.toNat s.len.toNat s k hk hc
  have ht : t = gctrChunksEffect s k := Progress.running.inj (hrun.symm.trans (gctrRun_eq_effect s k hc))
  rw [← ht, gctrFn, buffer, memRead_length]
  exact ⟨hout, fun hsep => hdst (separate_of_sameOrDisjoint hsep)⟩

/-! #### The command -/

theorem exec_gctr_of_steps {p : Progress} (h : gctrSteps s = p) : exec .gctr s = .next p.finish := h ▸ rfl

theorem gctrSteps_of_valid (hsrc : ValidRange s.memSize s.srcaddr s.len) (hdst : ValidRange s.memSize s.dstaddr s.len) :
    gctrSteps s = gctrRun s.srcaddr s.dstaddr s.len s := by
  rw [gctrSteps, requireRange_of_valid hsrc, andThen_running, requireRange_of_valid hdst, andThen_running]

theorem gctrSteps_of_invalid (h : ¬(ValidRange s.memSize s.srcaddr s.len ∧ ValidRange s.memSize s.dstaddr s.len)) :
    gctrSteps s = .raised .eRange s := by
  unfold gctrSteps
  by_cases hsrc : ValidRange s.memSize s.srcaddr s.len
  · rw [requireRange_of_valid hsrc, andThen_running, requireRange_of_invalid fun hdst => h ⟨hsrc, hdst⟩, andThen_raised]
  · rw [requireRange_of_invalid hsrc, andThen_raised]

theorem exec_gctr_of_answers (hsrc : ValidRange s.memSize s.srcaddr s.len) (hdst : ValidRange s.memSize s.dstaddr s.len)
    (hc : CipherAnswers s (nchunks s.len.toNat)) :
    exec .gctr s = .next (doneOk (gctrChunksEffect s (nchunks s.len.toNat))) :=
  exec_gctr_of_steps ((gctrSteps_of_valid hsrc hdst).trans (gctrRun_of_answers hc))

end

/-- Settles O31: the loop runs through, or stops at the chunk whose call fails. -/
theorem gctrRunsChunkByChunkAndStopsAtAFailingCall : Obligations.GctrRunsChunkByChunkAndStopsAtAFailingCall := by
  intro s k hsrc hdst hc
  constructor
  · rintro rfl
    exact exec_gctr_of_answers hsrc hdst hc
  · intro hk hf
    exact exec_gctr_of_steps ((gctrSteps_of_valid hsrc hdst).trans (gctrRun_of_fail hk hc hf))

/-- No text is a valid range wherever it is, and has no chunk. -/
theorem exec_gctr_of_empty {s : State} (h : s.len = 0) : exec .gctr s = .next (doneOk s) := by
  have hn : nchunks s.len.toNat = 0 := by rw [h]; rfl
  have hrun := exec_gctr_of_answers (s := s) (.inl h) (.inl h) (by rw [hn]; exact fun _ hj => absurd hj (Nat.not_lt_zero _))
  rwa [hn] at hrun

/-- Settles O30: the range checks, then the loop through all chunks, whose counter blocks and bytes are those of `GCTR_fn`. -/
theorem gctrTransformsTheBuffer : Obligations.GctrTransformsTheBuffer := by
  intro s
  refine ⟨fun h => exec_gctr_of_steps (gctrSteps_of_invalid h), exec_gctr_of_empty, fun hsrc hdst hc => ?_⟩
  set n := nchunks s.len.toNat
  have hframe := gctrChunksEffect_frame s n
  obtain ⟨hout, hbytes⟩ := gctrChunksEffect_bytes le_rfl hc
  refine ⟨_, exec_gctr_of_answers hsrc hdst hc, ?_, fun a ha => hout a (outsideChunks_of_not_inRange ha), fun hsep => ?_⟩
  · exact congrArg doneOk hframe
  · have htext := hbytes hsep
    rw [chunksDone_nchunks, List.take_of_length_le (by simp [gctrFn_length, buffer])] at htext
    have hcb : (gctrChunksEffect s n).cb = (gctrFn (encryptBlock s.cipher) s.cb (buffer s s.srcaddr s.len)).2 := by
      rw [gctrFn_counter, buffer, memRead_length, hframe]
    exact Prod.ext htext hcb

end Sys2Proof.Machine
end

section
/-! ### GCMENC: the loop, the tag, and the call at which it stops (R170, R172, R174, R218, R250) -/

namespace Sys2Proof.Machine

/-! #### The tag step -/

theorem withFullTag_of_answer {s : State} (next : Block → State → Progress) (h : callFails s.cipher 0 = false) :
    withFullTag s next =
      next (s.y ^^^ encryptBlock s.cipher s.j0) { s with cb := inc32 s.j0, cipher := afterCalls s.cipher [s.j0] } := by
  unfold withFullTag
  exact withCipher_of_answer _ h

theorem withFullTag_of_fail {s : State} (next : Block → State → Progress) (h : callFails s.cipher 0 = true) :
    withFullTag s next = .raised .ePrim { s with cb := s.j0, cipher := afterCalls s.cipher [s.j0] } := by
  unfold withFullTag
  exact withCipher_of_fail _ h

/-- The tag of `GCM_encrypt`, `GCTR_fn` on the one block S, is the first bytes of S ^ E(J0). -/
theorem gctrFn_bytes16 (E : Block → Block) (cb b : Block) : (gctrFn E cb (bytes16 b)).1 = bytes16 (b ^^^ E cb) := by
  have hone : nchunks 16 = 1 := rfl
  have hxor : xorBytes (bytes16 b) (bytes16 (E cb)) = bytes16 (b ^^^ E cb) := by
    simp [xorBytes, bytes16, List.zipWith_map, blockByte, BitVec.extractLsb'_xor]
  simp only [gctrFn, bytes16_length, hone, gctrChunks, List.append_nil]
  rw [List.take_of_length_le (bytes16_length b).le, bytes16_length, left, List.take_of_length_le (bytes16_length _).le, hxor]

/-- The compared bits are the leftmost t bytes, read as a number (R180). -/
theorem tagPrefix_eq_blk (b : Block) (t : Nat) : tagPrefix b t = blk (left t b) := by
  refine BitVec.eq_of_getLsbD_eq fun i hi => ?_
  rw [tagPrefix, BitVec.getLsbD_ushiftRight, blk_getLsbD _ i hi, left_length]
  split_ifs with hbyte
  · have hget : (left t b).getD (min t 16 - 1 - i / 8) 0 = blockByte b (min t 16 - 1 - i / 8) := by
      rw [List.getD_eq_getElem?_getD, left, List.getElem?_take_of_lt (by omega), ← List.getD_eq_getElem?_getD,
        bytes16_getD b (by omega)]
    have hplace : 120 - 8 * (min t 16 - 1 - i / 8) + i % 8 = 128 - 8 * t + i := by omega
    rw [hget, blockByte_getLsbD b _ (Nat.mod_lt _ (by decide)), hplace]
  · exact BitVec.getLsbD_of_ge _ _ (by omega)

theorem blk_append_zeros (s : List Byte) (k : Nat) : blk (s ++ zeros k) = blk s <<< (8 * k) := by
  induction k with
  | zero => simp [zeros]
  | succ k ih =>
    have hlast : s ++ zeros (k + 1) = s ++ zeros k ++ [0] := by simp [zeros, List.replicate_succ']
    rw [hlast, blk_append_singleton, ih, ← BitVec.shiftLeft_add, Nat.mul_succ]
    simp

/-- The truncated tag holds the leftmost t bytes, then zero bytes (R172). -/
theorem tagOf_eq_blk (full : Block) (t : Nat) : tagOf full t = blk (left t full ++ zeros (16 - t)) := by
  have hbits : 128 - 8 * t = 8 * (16 - t) := by omega
  rw [blk_append_zeros, ← tagPrefix_eq_blk, ← hbits]
  rfl

/-- The tag of `GCM_encrypt`, from the hash S of its ciphertext. -/
theorem gcmEncrypt_tag (E : Block → Block) (t : Nat) (iv aad p : List Byte) :
    (gcmEncrypt E t iv aad p).2 = left t (ghashS E aad (gcmEncrypt E t iv aad p).1 ^^^ E (j0Of (E 0) iv)) :=
  congrArg (List.take t) (gctrFn_bytes16 ..)

/-! #### The loop (R174) -/

/-- The state after the first k chunks of GCMENC's loop. -/
abbrev gcmencLoop (s : State) (k : Nat) : State := gcmencChunksEffect (gcmencLoopStart s) k

/-- The ciphertext of `GCM_encrypt` for the operands in `s` (R170). -/
def State.ciphertext (s : State) : List Byte :=
  (gcmEncrypt (encryptBlock s.cipher) s.taglen.toNat (buffer s s.ivaddr s.ivlen) (buffer s s.aadaddr s.aadlen)
    (buffer s s.srcaddr s.len)).1

theorem ciphertext_length (s : State) : s.ciphertext.length = s.len.toNat :=
  (gctrFn_length ..).trans (memRead_length ..)

/-- What k chunks of the loop can change, from the state in which the command starts. -/
theorem gcmencLoop_frame (s : State) (k : Nat) :
    gcmencLoop s k = { gcmencLoopStart s with
      mem := (gcmencLoop s k).mem, y := (gcmencLoop s k).y, cb := inc32^[k] (gcmencLoopStart s).cb
      cipher := afterCalls s.cipher ([0] ++ counterBlocks (gcmencLoopStart s).cb k) } :=
  have hcalls (bs : List Block) : afterCalls (gcmencLoopStart s).cipher bs = afterCalls s.cipher ([0] ++ bs) :=
    afterCalls_afterCalls ..
  hcalls _ ▸ gcmencChunksEffect_frame (gcmencLoopStart s) k

/-- The call after k chunks is number k + 1, the subkey's being number 0. -/
theorem callFails_gcmencLoop (s : State) (k : Nat) :
    callFails (gcmencLoop s k).cipher 0 = callFails s.cipher (k + 1) := by
  rw [gcmencLoop_frame]
  simp

section
variable {s : State} {k : Nat}

/-- GCMENC's loop writes what `gctr_run` writes, and absorbs the bytes at the destination. -/
theorem gcmencChunksEffect_eq (hk : k ≤ nchunks s.len.toNat) (hc : CipherAnswers s k) :
    gcmencChunksEffect s k = { gctrChunksEffect s k with
      y := ghashFrom s.h s.y (pad128 (memRead (gctrChunksEffect s k) s.dstaddr.toNat (chunksDone s k))) } := by
  obtain ⟨t, hgctr, hgcm⟩ := gcmenc_chunks k s hk hc
  have ht : t = gctrChunksEffect s k := Progress.running.inj (hgctr.symm.trans (gctrRun_eq_effect s k hc))
  rw [ht] at hgcm
  exact Progress.running.inj ((gcmencRun_eq_effect s k hc).symm.trans hgcm)

theorem cipherAnswers_gcmencLoopStart (hc : CipherAnswers s (k + 1)) : CipherAnswers (gcmencLoopStart s) k :=
  cipherAnswers_afterCalls rfl hc (by simp; omega)

/-- The first k chunks write the first k chunks of the destination only; for identical or disjoint ranges these are the
first k chunks of the ciphertext, and Y is the hash of the AAD and of them (R250). -/
theorem gcmencLoop_bytes (hk : k ≤ nchunks s.len.toNat) (hc : CipherAnswers s (k + 1)) :
    (∀ a, OutsideChunks s k a → readByte (gcmencLoop s k) a = readByte s a) ∧
    (SameOrDisjoint s.srcaddr s.dstaddr s.len →
      memRead (gcmencLoop s k) s.dstaddr.toNat (chunksDone s k) = s.ciphertext.take (chunksDone s k) ∧
      (gcmencLoop s k).y = ghashFrom (encryptBlock s.cipher 0)
        (ghashFrom (encryptBlock s.cipher 0) 0 (pad128 (buffer s s.aadaddr s.aadlen)))
        (pad128 (s.ciphertext.take (chunksDone s k)))) := by
  have hstart := cipherAnswers_gcmencLoopStart hc
  obtain ⟨hout, hbytes⟩ := gctrChunksEffect_bytes (s := gcmencLoopStart s) hk hstart
  rw [gcmencLoop, gcmencChunksEffect_eq (s := gcmencLoopStart s) hk hstart]
  exact ⟨hout, fun hsep => ⟨hbytes hsep, congrArg (fun x => ghashFrom _ _ (pad128 x)) (hbytes hsep)⟩⟩

/-- Before the last chunk nothing is padded. -/
theorem gcmencLoop_y_of_lt (hk : k < nchunks s.len.toNat) (hc : CipherAnswers s (k + 1))
    (hsep : SameOrDisjoint s.srcaddr s.dstaddr s.len) :
    (gcmencLoop s k).y = ghashFrom (encryptBlock s.cipher 0) 0
      (pad128 (buffer s s.aadaddr s.aadlen) ++ s.ciphertext.take (chunksDone s k)) := by
  have hwhole : (s.ciphertext.take (chunksDone s k)).length % 16 = 0 := by
    have hlt := (lt_nchunks_iff _ _).1 hk
    simp only [List.length_take, ciphertext_length, chunksDone]
    omega
  obtain ⟨-, hy⟩ := (gcmencLoop_bytes hk.le hc).2 hsep
  rw [hy, pad128_of_aligned _ hwhole, ghashFrom_append _ _ _ _ (pad128_length_mod _)]

/-! #### The endings of the command -/

/-- Y after the loop and the length block. -/
def gcmencHash (s : State) : Block :=
  gfmul ((gcmencLoop s (nchunks s.len.toNat)).y ^^^ lenblock s.aadlen.toNat s.len.toNat) (encryptBlock s.cipher 0)

/-- For identical or disjoint ranges it is S, the hash of AAD, ciphertext and lengths (R170). -/
theorem gcmencHash_eq_ghashS (hc : CipherAnswers s (nchunks s.len.toNat + 1))
    (hsep : SameOrDisjoint s.srcaddr s.dstaddr s.len) :
    gcmencHash s = ghashS (encryptBlock s.cipher) (buffer s s.aadaddr s.aadlen) s.ciphertext := by
  have hall : s.ciphertext.take (chunksDone s (nchunks s.len.toNat)) = s.ciphertext :=
    List.take_of_length_le (by rw [ciphertext_length, chunksDone_nchunks])
  have haad : (buffer s s.aadaddr s.aadlen).length = s.aadlen.toNat := memRead_length ..
  obtain ⟨-, hy⟩ := (gcmencLoop_bytes le_rfl hc).2 hsep
  rw [gcmencHash, hy, hall, ← ghashS_eq, haad, ciphertext_length]

/-- GCMENC's tag step, after the loop (R174). -/
def gcmencTag (s : State) : Progress :=
  withFullTag (absorbLengths s) fun full s => .running { s with tag := tagOf full s.taglen.toNat }

/-- GCMENC after the common beginning (R174). -/
def gcmencText (s : State) : Progress :=
  (forChunks gcmencChunk 0 (nchunks s.len.toNat) { s with cb := inc32 s.j0 }).andThen gcmencTag

theorem gcmencSteps_eq : gcmencSteps = messageSteps gcmencText := rfl

theorem exec_gcmenc_of_steps {p : Progress} (h : gcmencSteps s = p) : exec .gcmenc s = .next p.finish := h ▸ rfl

variable (hv : BuffersValid s)
include hv

/-- The subkey's call fails. -/
theorem gcmencSteps_of_subkey_fail (hf : callFails s.cipher 0 = true) :
    gcmencSteps s = .raised .ePrim { s with tag := 0, cipher := afterCalls s.cipher [0] } := by
  rw [gcmencSteps_eq, messageSteps_of_valid _ hv, beginMessage_of_fail hf, andThen_raised]

/-- The subkey's call answers: the loop starts. -/
theorem gcmencSteps_of_subkey (hc : CipherAnswers s (k + 1)) :
    gcmencSteps s = (forChunks gcmencChunk 0 (nchunks s.len.toNat) (gcmencLoopStart s)).andThen gcmencTag := by
  rw [gcmencSteps_eq, messageSteps_of_valid _ hv, beginMessage_of_answer (hc 0 k.succ_pos), andThen_running]
  rfl

/-- The call of chunk k fails. -/
theorem gcmencSteps_of_chunk_fail (hk : k < nchunks s.len.toNat) (hc : CipherAnswers s (k + 1))
    (hf : callFails s.cipher (k + 1) = true) :
    gcmencSteps s = .raised .ePrim { gcmencLoopStart s with
      mem := (gcmencLoop s k).mem, y := (gcmencLoop s k).y, cb := inc32^[k] (gcmencLoopStart s).cb
      cipher := afterCalls s.cipher
        ([0] ++ counterBlocks (gcmencLoopStart s).cb k ++ [inc32^[k] (gcmencLoopStart s).cb]) } := by
  have hframe := gcmencLoop_frame s k
  have hfail := (callFails_gcmencLoop s k).trans hf
  have hloop := forChunks_stops hk (gcmencRun_eq_effect _ k (cipherAnswers_gcmencLoopStart hc)) (gcmencChunk_of_fail _ _ hfail)
  rw [gcmencSteps_of_subkey hv hc, hloop, andThen_raised, ← afterCalls_afterCalls]
  congr 1
  exact congrArg (fun t : State => { t with cipher := afterCalls t.cipher [t.cb] }) hframe

/-- Every chunk's call answers: the tag step follows. -/
theorem gcmencSteps_of_chunks (hc : CipherAnswers s (nchunks s.len.toNat + 1)) :
    gcmencSteps s = gcmencTag (gcmencLoop s (nchunks s.len.toNat)) := by
  rw [gcmencSteps_of_subkey hv hc, gcmencRun_eq_effect _ _ (cipherAnswers_gcmencLoopStart hc), andThen_running]

/-- The tag's call fails. -/
theorem gcmencSteps_of_tag_fail (hc : CipherAnswers s (nchunks s.len.toNat + 1))
    (hf : callFails s.cipher (nchunks s.len.toNat + 1) = true) :
    gcmencSteps s = .raised .ePrim { gcmencLoopStart s with
      mem := (gcmencLoop s (nchunks s.len.toNat)).mem, y := gcmencHash s, cb := (gcmencLoopStart s).j0
      cipher := afterCalls s.cipher
        ([0] ++ counterBlocks (gcmencLoopStart s).cb (nchunks s.len.toNat) ++ [(gcmencLoopStart s).j0]) } := by
  have hframe := gcmencLoop_frame s (nchunks s.len.toNat)
  have hfail := (callFails_gcmencLoop s (nchunks s.len.toNat)).trans hf
  rw [gcmencSteps_of_chunks hv hc, gcmencTag, withFullTag_of_fail (s := absorbLengths _) _ hfail, ← afterCalls_afterCalls]
  congr 1
  exact congrArg (fun t : State => { absorbLengths t with cb := t.j0, cipher := afterCalls t.cipher [t.j0] }) hframe

/-- No call fails. -/
theorem gcmencSteps_of_answers (hc : CipherAnswers s (nchunks s.len.toNat + 2)) :
    gcmencSteps s = .running { gcmencLoopStart s with
      mem := (gcmencLoop s (nchunks s.len.toNat)).mem, y := gcmencHash s
      tag := tagOf (gcmencHash s ^^^ encryptBlock s.cipher (gcmencLoopStart s).j0) s.taglen.toNat
      cb := inc32 (gcmencLoopStart s).j0
      cipher := afterCalls s.cipher
        ([0] ++ counterBlocks (gcmencLoopStart s).cb (nchunks s.len.toNat) ++ [(gcmencLoopStart s).j0]) } := by
  have hframe := gcmencLoop_frame s (nchunks s.len.toNat)
  have hans := (callFails_gcmencLoop s (nchunks s.len.toNat)).trans (hc (nchunks s.len.toNat + 1) (by omega))
  rw [gcmencSteps_of_chunks hv fun j hj => hc j (by omega), gcmencTag, withFullTag_of_answer (s := absorbLengths _) _ hans,
    ← afterCalls_afterCalls]
  congr 1
  exact congrArg (fun t : State => { absorbLengths t with
    tag := tagOf ((absorbLengths t).y ^^^ encryptBlock t.cipher t.j0) t.taglen.toNat
    cb := inc32 t.j0, cipher := afterCalls t.cipher [t.j0] }) hframe

end

/-- Settles O34: every call answers, so the loop runs through and the tag step follows; for identical or disjoint ranges the
loop's bytes are the ciphertext and its hash is S. -/
theorem gcmencEncryptsAndTags : Obligations.GcmencEncryptsAndTags := by
  intro s hv hc E iv aad p t j0
  have hc' : CipherAnswers s (nchunks s.len.toNat + 1) := fun j hj => hc j (by omega)
  obtain ⟨hout, hbytes⟩ := gcmencLoop_bytes le_rfl hc'
  refine ⟨_, exec_gcmenc_of_steps (gcmencSteps_of_answers hv hc), rfl, ⟨rfl, rfl, rfl⟩,
    fun a ha => hout a (outsideChunks_of_not_inRange ha), fun hsep => ?_⟩
  have hhash := gcmencHash_eq_ghashS hc' hsep
  obtain ⟨htext, -⟩ := hbytes hsep
  rw [chunksDone_nchunks, List.take_of_length_le (ciphertext_length s).le] at htext
  refine ⟨htext, ?_, hhash⟩
  rw [gcmEncrypt_tag, ← tagOf_eq_blk]
  exact congrArg (fun y => tagOf (y ^^^ E j0) t) hhash

/-- Settles O36: the failing call is the subkey's, chunk k - 1's, or, for k = n + 1, the tag's. -/
theorem gcmencStopsAtTheFailingCall : Obligations.GcmencStopsAtTheFailingCall := by
  intro s k hv hc hf E iv aad p c n j0
  refine ⟨fun h0 => exec_gcmenc_of_steps (gcmencSteps_of_subkey_fail hv (h0 ▸ hf)), fun hpos hle => ?_⟩
  obtain ⟨i, rfl⟩ : ∃ i, k = i + 1 := ⟨k - 1, by omega⟩
  have hi : i ≤ n := Nat.le_of_succ_le_succ hle
  obtain ⟨hout, hbytes⟩ := gcmencLoop_bytes hi hc
  obtain rfl | hlt := hi.eq_or_lt
  · simp only [if_true]
    exact ⟨_, exec_gcmenc_of_steps (gcmencSteps_of_tag_fail hv hc hf), rfl, ⟨rfl, rfl⟩, hout,
      fun hsep => ⟨(hbytes hsep).1, gcmencHash_eq_ghashS hc hsep⟩⟩
  · have hne : i + 1 ≠ n + 1 := by omega
    simp only [if_neg hne]
    exact ⟨_, exec_gcmenc_of_steps (gcmencSteps_of_chunk_fail hv hlt hc hf), rfl, ⟨rfl, rfl⟩, hout,
      fun hsep => ⟨(hbytes hsep).1, gcmencLoop_y_of_lt hlt hc hsep⟩⟩

end Sys2Proof.Machine
end

section
/-! ### GCMDEC: the tag verified in pass 1, the text decrypted in pass 2 (R147, R170, R180 to R182, R218, R221, R250) -/

namespace Sys2Proof.Machine

/-! #### The comparison of the tags (R180, R182) -/

/-- The compared bits agree exactly when the leftmost t bytes do. -/
theorem tagPrefix_eq_iff {a b : Block} {t : Nat} : tagPrefix a t = tagPrefix b t ↔ left t a = left t b := by
  constructor
  · intro h
    have hbytes (x : Block) : bytes16 (tagOf x t) = left t x ++ zeros (16 - t) := by
      rw [tagOf_eq_blk, bytes16_blk (by simp; omega)]
    have htag : tagOf a t = tagOf b t := congrArg (fun x : Block => x <<< (128 - 8 * t)) h
    have happend := congrArg bytes16 htag
    rw [hbytes, hbytes] at happend
    exact List.append_cancel_right happend
  · intro h
    rw [tagPrefix_eq_blk, tagPrefix_eq_blk, h]

theorem requireTag_of_match {full : Block} {s : State} (h : left s.taglen.toNat full = left s.taglen.toNat s.tagin) :
    requireTag full s = .running s := if_neg (not_not.2 (tagPrefix_eq_iff.2 h))

theorem requireTag_of_mismatch {full : Block} {s : State} (h : left s.taglen.toNat full ≠ left s.taglen.toNat s.tagin) :
    requireTag full s = .raised .eAuth s := if_pos fun heq => h (tagPrefix_eq_iff.1 heq)

section
variable {E : Block → Block} {t : Nat} {iv aad c tag : List Byte}

theorem gcmDecrypt_eq : gcmDecrypt E t iv aad c tag =
    if left t (ghashS E aad c ^^^ E (j0Of (E 0) iv)) ≠ tag then none else some (gctrFn E (inc32 (j0Of (E 0) iv)) c).1 := rfl

/-- `GCM_decrypt` accepts when the recomputed tag is the given one, and then answers `GCTR_fn` of the ciphertext. -/
theorem gcmDecrypt_eq_some_iff {p : List Byte} :
    gcmDecrypt E t iv aad c tag = some p ↔ left t (ghashS E aad c ^^^ E (j0Of (E 0) iv)) = tag ∧
      (gctrFn E (inc32 (j0Of (E 0) iv)) c).1 = p := by
  rw [gcmDecrypt_eq]
  split_ifs with h
  · exact ⟨nofun, fun ⟨heq, _⟩ => absurd heq h⟩
  · rw [and_iff_right (not_not.1 h), Option.some_inj]

theorem gcmDecrypt_eq_none_iff :
    gcmDecrypt E t iv aad c tag = none ↔ left t (ghashS E aad c ^^^ E (j0Of (E 0) iv)) ≠ tag := by
  rw [gcmDecrypt_eq]
  split_ifs with h
  · exact iff_of_true rfl h
  · exact iff_of_false nofun h

end

/-! #### Pass 1 -/

/-- S, the hash of AAD, ciphertext and lengths for the operands in `s`, before anything is written (R170). -/
def State.textHash (s : State) : Block := ghashS (encryptBlock s.cipher) (buffer s s.aadaddr s.aadlen) (buffer s s.srcaddr s.len)

/-- The pre-counter block for the IV in `s`, under the subkey to be derived (R143). -/
def State.messageJ0 (s : State) : Block := j0Of (encryptBlock s.cipher 0) (buffer s s.ivaddr s.ivlen)

/-- The state in which GCMDEC's tag step starts: TAG cleared, H, J0 and Y = S derived, one call made (R180). -/
def gcmdecHashed (s : State) : State :=
  { s with
    tag := 0, h := encryptBlock s.cipher 0, j0 := s.messageJ0, y := s.textHash, cipher := afterCalls s.cipher [0] }

/-- The state in which the tags are compared: the tag's call made, CB = `inc32(J0)` (R180). -/
def gcmdecTagged (s : State) : State :=
  { gcmdecHashed s with cb := inc32 s.messageJ0, cipher := afterCalls s.cipher [0, s.messageJ0] }

/-- GCMDEC from the tag step on (R180). -/
def gcmdecTag (s : State) : Progress :=
  withFullTag s fun full s =>
  (requireTag full s).andThen fun s =>
  gctrRun s.srcaddr s.dstaddr s.len { s with cb := inc32 s.j0 }

theorem gcmdecSteps_eq :
    gcmdecSteps = messageSteps fun s => gcmdecTag (absorbLengths (absorbBuffer s.srcaddr s.len s)) := rfl

theorem exec_gcmdec_of_steps {s : State} {p : Progress} (h : gcmdecSteps s = p) : exec .gcmdec s = .next p.finish := h ▸ rfl

section
variable {s : State} (hv : BuffersValid s)
include hv

/-- The subkey's call fails. -/
theorem gcmdecSteps_of_subkey_fail (hf : callFails s.cipher 0 = true) :
    gcmdecSteps s = .raised .ePrim { s with tag := 0, cipher := afterCalls s.cipher [0] } := by
  rw [gcmdecSteps_eq, messageSteps_of_valid _ hv, beginMessage_of_fail hf, andThen_raised]

/-- The subkey's call answers: Y is S when the tag step starts. -/
theorem gcmdecSteps_of_subkey (h : callFails s.cipher 0 = false) : gcmdecSteps s = gcmdecTag (gcmdecHashed s) := by
  have haad : (buffer s s.aadaddr s.aadlen).length = s.aadlen.toNat := memRead_length ..
  have htext : (buffer s s.srcaddr s.len).length = s.len.toNat := memRead_length ..
  have hhash := ghashS_eq (encryptBlock s.cipher) (buffer s s.aadaddr s.aadlen) (buffer s s.srcaddr s.len)
  rw [haad, htext] at hhash
  rw [gcmdecSteps_eq, messageSteps_of_valid _ hv, beginMessage_of_answer h, andThen_running, absorbBuffer_eq]
  exact congrArg (fun y => gcmdecTag { gcmdecHashed s with y := y }) hhash

/-- The tag's call fails. -/
theorem gcmdecSteps_of_tag_fail (h : callFails s.cipher 0 = false) (hf : callFails s.cipher 1 = true) :
    gcmdecSteps s = .raised .ePrim { gcmdecHashed s with
      cb := s.messageJ0, cipher := afterCalls s.cipher [0, s.messageJ0] } := by
  have hfail : callFails (gcmdecHashed s).cipher 0 = true := (callFails_afterCalls ..).trans hf
  rw [gcmdecSteps_of_subkey hv h, gcmdecTag, withFullTag_of_fail _ hfail]
  exact congrArg (fun c => Progress.raised .ePrim { gcmdecHashed s with cb := s.messageJ0, cipher := c }) (afterCalls_afterCalls ..)

/-- The tag's call answers: the tags are compared. -/
theorem gcmdecSteps_of_tag (hc : CipherAnswers s 2) :
    gcmdecSteps s = (requireTag (s.textHash ^^^ encryptBlock s.cipher s.messageJ0) (gcmdecTagged s)).andThen fun s =>
      gctrRun s.srcaddr s.dstaddr s.len { s with cb := inc32 s.j0 } := by
  have hans : callFails (gcmdecHashed s).cipher 0 = false := (callFails_afterCalls ..).trans (hc 1 one_lt_two)
  have hcalls : afterCalls (gcmdecHashed s).cipher [(gcmdecHashed s).j0] = afterCalls s.cipher [0, s.messageJ0] :=
    afterCalls_afterCalls ..
  rw [gcmdecSteps_of_subkey hv (hc 0 two_pos), gcmdecTag, withFullTag_of_answer _ hans, hcalls]
  rfl

/-- `GCM_decrypt` does not accept (R182, R221). -/
theorem gcmdecSteps_of_mismatch (hc : CipherAnswers s 2)
    (h : left s.taglen.toNat (s.textHash ^^^ encryptBlock s.cipher s.messageJ0) ≠ left s.taglen.toNat s.tagin) :
    gcmdecSteps s = .raised .eAuth (gcmdecTagged s) := by
  rw [gcmdecSteps_of_tag hv hc, requireTag_of_mismatch (s := gcmdecTagged s) h, andThen_raised]

/-- `GCM_decrypt` accepts: pass 2 follows. -/
theorem gcmdecSteps_of_match (hc : CipherAnswers s 2)
    (h : left s.taglen.toNat (s.textHash ^^^ encryptBlock s.cipher s.messageJ0) = left s.taglen.toNat s.tagin) :
    gcmdecSteps s = gctrRun s.srcaddr s.dstaddr s.len (gcmdecTagged s) := by
  rw [gcmdecSteps_of_tag hv hc, requireTag_of_match (s := gcmdecTagged s) h, andThen_running]
  rfl

end

/-! #### Pass 2 -/

/-- The state after the first k chunks of pass 2. -/
abbrev gcmdecLoop (s : State) (k : Nat) : State := gctrChunksEffect (gcmdecTagged s) k

theorem gcmdecLoop_frame (s : State) (k : Nat) :
    gcmdecLoop s k = { gcmdecTagged s with
      mem := (gcmdecLoop s k).mem, cb := inc32^[k] (gcmdecTagged s).cb
      cipher := afterCalls s.cipher ([0, s.messageJ0] ++ counterBlocks (gcmdecTagged s).cb k) } :=
  have hcalls (bs : List Block) : afterCalls (gcmdecTagged s).cipher bs = afterCalls s.cipher ([0, s.messageJ0] ++ bs) :=
    afterCalls_afterCalls ..
  hcalls _ ▸ gctrChunksEffect_frame (gcmdecTagged s) k

/-- Pass 2 reads nothing that pass 1 has written but CB. -/
theorem gcmdecLoop_mem (s : State) (k : Nat) :
    (gcmdecLoop s k).mem = (gctrChunksEffect { s with cb := inc32 s.messageJ0 } k).mem :=
  gctrChunksEffect_mem_congr (s := gcmdecTagged s) (t := { s with cb := inc32 s.messageJ0 }) rfl rfl rfl rfl rfl rfl k

section
variable {s : State} {k : Nat}

theorem cipherAnswers_gcmdecTagged (hc : CipherAnswers s (k + 2)) : CipherAnswers (gcmdecTagged s) k :=
  cipherAnswers_afterCalls rfl hc (by simp; omega)

/-- The first k chunks write the first k chunks of the destination only; for identical or disjoint ranges these are the
first k chunks of the plaintext (R250). -/
theorem gcmdecLoop_bytes (hk : k ≤ nchunks s.len.toNat) (hc : CipherAnswers s (k + 2)) :
    (∀ a, OutsideChunks s k a → readByte (gcmdecLoop s k) a = readByte s a) ∧
    (SameOrDisjoint s.srcaddr s.dstaddr s.len →
      memRead (gcmdecLoop s k) s.dstaddr.toNat (chunksDone s k) =
        (gctrFn (encryptBlock s.cipher) (inc32 s.messageJ0) (buffer s s.srcaddr s.len)).1.take (chunksDone s k)) :=
  gctrChunksEffect_bytes (s := gcmdecTagged s) hk (cipherAnswers_gcmdecTagged hc)

/-! #### The endings of the command on a match -/

variable (hv : BuffersValid s)
  (htag : left s.taglen.toNat (s.textHash ^^^ encryptBlock s.cipher s.messageJ0) = left s.taglen.toNat s.tagin)
include hv htag

/-- The call of chunk k fails. -/
theorem gcmdecSteps_of_chunk_fail (hk : k < nchunks s.len.toNat) (hc : CipherAnswers s (k + 2))
    (hf : callFails s.cipher (k + 2) = true) :
    gcmdecSteps s = .raised .ePrim { gcmdecTagged s with
      mem := (gcmdecLoop s k).mem, cb := inc32^[k] (gcmdecTagged s).cb
      cipher := afterCalls s.cipher ([0, s.messageJ0] ++ counterBlocks (gcmdecTagged s).cb (k + 1)) } := by
  have hfail : callFails (gcmdecTagged s).cipher k = true := by
    rw [gcmdecTagged, callFails_afterCalls, Nat.add_comm]
    exact hf
  rw [gcmdecSteps_of_match hv (fun j hj => hc j (by omega)) htag, counterBlocks_succ_last, ← List.append_assoc,
    ← afterCalls_afterCalls]
  refine (gctrRun_of_fail (s := gcmdecTagged s) hk (cipherAnswers_gcmdecTagged hc) hfail).trans (congrArg _ ?_)
  exact congrArg (fun t : State => { t with cipher := afterCalls t.cipher [inc32^[k] (gcmdecTagged s).cb] })
    (gcmdecLoop_frame s k)

/-- No call fails. -/
theorem gcmdecSteps_of_answers (hc : CipherAnswers s (nchunks s.len.toNat + 2)) :
    gcmdecSteps s = .running { gcmdecTagged s with
      mem := (gcmdecLoop s (nchunks s.len.toNat)).mem, cb := inc32^[nchunks s.len.toNat] (gcmdecTagged s).cb
      cipher := afterCalls s.cipher
        ([0, s.messageJ0] ++ counterBlocks (gcmdecTagged s).cb (nchunks s.len.toNat)) } := by
  rw [gcmdecSteps_of_match hv (fun j hj => hc j (by omega)) htag, ← gcmdecLoop_frame]
  exact gctrRun_of_answers (s := gcmdecTagged s) (cipherAnswers_gcmdecTagged hc)

end

/-- Settles O35: the tags match and pass 2 runs through, or they do not and pass 1 is all. -/
theorem gcmdecVerifiesThenDecrypts : Obligations.GcmdecVerifiesThenDecrypts := by
  intro s hv E iv aad c t n j0
  constructor
  · intro p hp hc
    obtain ⟨htag, rfl⟩ := gcmDecrypt_eq_some_iff.1 hp
    obtain ⟨hout, hbytes⟩ := gcmdecLoop_bytes le_rfl hc
    refine ⟨_, exec_gcmdec_of_steps (gcmdecSteps_of_answers hv htag hc), rfl, gcmdecLoop_mem s n,
      fun a ha => hout a (outsideChunks_of_not_inRange ha), fun hsep => ?_⟩
    have htext := hbytes hsep
    rwa [chunksDone_nchunks, List.take_of_length_le (by simp [gctrFn_length, buffer])] at htext
  · intro hnone hc
    exact exec_gcmdec_of_steps (gcmdecSteps_of_mismatch hv hc (gcmDecrypt_eq_none_iff.1 hnone))

/-- Settles O37: the failing call is the subkey's, the tag's, or, on a match, chunk k - 2's of pass 2. -/
theorem gcmdecStopsAtTheFailingCall : Obligations.GcmdecStopsAtTheFailingCall := by
  intro s k hv hc hf E iv aad c n j0
  refine ⟨fun h0 => exec_gcmdec_of_steps (gcmdecSteps_of_subkey_fail hv (h0 ▸ hf)), ?_, fun htwo hle p hp => ?_⟩
  · rintro rfl
    exact exec_gcmdec_of_steps (gcmdecSteps_of_tag_fail hv (hc 0 one_pos) hf)
  · obtain ⟨i, rfl⟩ : ∃ i, k = i + 2 := ⟨k - 2, by omega⟩
    have hi : i < n := by omega
    obtain ⟨htag, rfl⟩ := gcmDecrypt_eq_some_iff.1 hp
    obtain ⟨hout, hbytes⟩ := gcmdecLoop_bytes hi.le hc
    exact ⟨_, exec_gcmdec_of_steps (gcmdecSteps_of_chunk_fail hv htag hi hc hf), rfl, gcmdecLoop_mem s i, hout, hbytes⟩

end Sys2Proof.Machine
end

section
/-! ### The GCM engine: GCMCFG, the range checks, the truncated tag, what TAGIN decides (R170 to R173, R180 to R183) -/

namespace Sys2Proof.Machine

/-! #### GCMCFG (R171) -/

theorem encode_gcmcfg {t : Nat} (ht : t < 256) : encode (.gcmcfg t) = 0x20 ||| (BitVec.ofNat 32 t <<< 8) := by
  have hfields : (encode (.gcmcfg t)).toNat = (0 <<< 8 ||| t % 256) <<< 8 ||| 0x20 :=
    (BitVec.toNat_append ..).trans (congrArg (· <<< 8 ||| 0x20) (BitVec.toNat_append ..))
  have hfit : t <<< 8 < 2 ^ 32 := by rw [Nat.shiftLeft_eq]; omega
  have hword : t < 2 ^ 32 := by omega
  refine BitVec.eq_of_toNat_eq ?_
  rw [hfields, BitVec.toNat_or, BitVec.toNat_shiftLeft, BitVec.toNat_ofNat, Nat.mod_eq_of_lt hword, Nat.mod_eq_of_lt hfit,
    Nat.mod_eq_of_lt ht, Nat.zero_shiftLeft, Nat.zero_or, Nat.lor_comm]
  rfl

theorem exec_gcmcfg_of_legal {t : Nat} (ht : LegalTagLength t) (s : State) :
    exec (.gcmcfg t) s = .next { s with taglen := BitVec.ofNat 5 t, status := statusOk } :=
  congrArg (fun p : Progress => Host.Outcome.next p.finish) (if_pos ht)

theorem exec_gcmcfg_of_illegal {t : Nat} (ht : ¬LegalTagLength t) (s : State) :
    exec (.gcmcfg t) s = .next (raise .eTaglen s) :=
  congrArg (fun p : Progress => Host.Outcome.next p.finish) (if_neg ht)

theorem legalTagLength_le {t : Nat} (ht : LegalTagLength t) : t ≤ 16 :=
  have hall : ∀ t ∈ [16, 15, 14, 13, 12, 8, 4], t ≤ 16 := by decide
  hall t ht

/-- Settles O32: the word is the encoding of GCMCFG t, and a legal t fits the five bits of TAGLEN. -/
theorem gcmcfgStoresALegalTagLength : Obligations.GcmcfgStoresALegalTagLength := by
  intro s t ht
  refine ⟨decodeWord_eq_instr_iff_encode.2 ⟨decide_eq_true ht, encode_gcmcfg ht⟩,
    fun hlegal => ⟨_, exec_gcmcfg_of_legal hlegal s, ?_, rfl⟩, fun hillegal => exec_gcmcfg_of_illegal hillegal s⟩
  have hle := legalTagLength_le hlegal
  exact Nat.mod_eq_of_lt (by omega)

/-! #### The range checks (R173) -/

/-- Settles O33: both commands begin with the range checks. -/
theorem invalidBufferRaisesERange : Obligations.InvalidBufferRaisesERange := by
  intro s hv i hi
  obtain rfl | rfl := List.mem_pair.1 hi
  · exact exec_gcmenc_of_steps (messageSteps_of_invalid gcmencText hv)
  · exact exec_gcmdec_of_steps (messageSteps_of_invalid _ hv)

/-! #### The truncated tag (R172) -/

theorem bytes16_tagOf (full : Block) (t : Nat) : bytes16 (tagOf full t) = left t full ++ zeros (16 - t) := by
  rw [tagOf_eq_blk, bytes16_blk (by simp; omega)]

theorem left_tagOf (full : Block) {t : Nat} (ht : t ≤ 16) : left t (tagOf full t) = left t full := by
  rw [left, bytes16_tagOf]
  exact List.take_left' (by simp [ht])

theorem tagOf_sixteen (full : Block) : tagOf full 16 = full := BitVec.shiftLeft_zero (full >>> 0)

/-- Settles O56: the truncated tag is the block of these 16 bytes, and a legal t is at most 16. -/
theorem tagOfKeepsTheLeftmostBytes : Obligations.TagOfKeepsTheLeftmostBytes := by
  intro full t ht
  have hle : t ≤ 16 := legalTagLength_le (List.mem_reverse.2 ht)
  refine ⟨bytes16_tagOf full t, left_tagOf full hle, ?_⟩
  rintro rfl
  exact tagOf_sixteen full

/-! #### Decryption after encryption (R170, R183) -/

/-- Settles O58: both sides hash the same ciphertext under the same J0, and `GCTR_fn` is an involution. -/
theorem decryptUndoesEncrypt : Obligations.DecryptUndoesEncrypt := by
  intro E t iv aad p ht
  have htag := gcmEncrypt_tag E t iv aad p
  refine ⟨gcmDecrypt_eq_some_iff.2 ⟨htag.symm, gctrFn_gctrFn E _ p⟩, ?_, gctrFn_length E _ p⟩
  rw [htag, left_length, min_eq_left (legalTagLength_le ht)]

/-! #### What TAGIN decides (R180, R182, R183) -/

/-- The next n calls all answer, or one of them is the first to fail. -/
theorem cipherAnswers_or_first_fail (s : State) (n : Nat) :
    CipherAnswers s n ∨ ∃ k < n, CipherAnswers s k ∧ callFails s.cipher k = true := by
  induction n with
  | zero => exact .inl nofun
  | succ n ih =>
    obtain hall | ⟨k, hk, hc, hf⟩ := ih
    · cases hn : callFails s.cipher n with
      | true => exact .inr ⟨n, n.lt_succ_self, hall, hn⟩
      | false => exact .inl fun j hj => (Nat.lt_succ_iff_lt_or_eq.1 hj).elim (hall j) fun h => h ▸ hn
    · exact .inr ⟨k, hk.trans n.lt_succ_self, hc, hf⟩

/-- The recomputed tag and TAGIN agree on their leftmost TAGLEN bytes. -/
abbrev State.TagMatches (s : State) : Prop :=
  left s.taglen.toNat (s.textHash ^^^ encryptBlock s.cipher s.messageJ0) = left s.taglen.toNat s.tagin

/-- Where GCMDEC can end: by `done_ok` only when the ranges are valid, the tags agree and every call answers; by E_AUTH only in
the state in which the tags are compared. -/
theorem gcmdecSteps_ends (s : State) :
    (gcmdecSteps s).Holds (fun _ => BuffersValid s ∧ s.TagMatches ∧ CipherAnswers s (nchunks s.len.toNat + 2))
      (fun e u => e = .eAuth → u = gcmdecTagged s) := by
  by_cases hv : BuffersValid s
  · obtain hall | ⟨k, hk, hc, hf⟩ := cipherAnswers_or_first_fail s (nchunks s.len.toNat + 2)
    · by_cases htag : s.TagMatches
      · rw [gcmdecSteps_of_answers hv htag hall]
        exact ⟨hv, htag, hall⟩
      · rw [gcmdecSteps_of_mismatch hv (fun j hj => hall j (by omega)) htag]
        exact fun _ => rfl
    · match k with
      | 0 => rw [gcmdecSteps_of_subkey_fail hv hf]; exact nofun
      | 1 => rw [gcmdecSteps_of_tag_fail hv (hc 0 one_pos) hf]; exact nofun
      | i + 2 =>
        by_cases htag : s.TagMatches
        · rw [gcmdecSteps_of_chunk_fail hv htag (by omega) hc hf]
          exact nofun
        · rw [gcmdecSteps_of_mismatch hv (fun j hj => hc j (by omega)) htag]
          exact fun _ => rfl
  · rw [gcmdecSteps_eq, messageSteps_of_invalid _ hv]
    exact nofun

theorem eq_eAuth_of_errorCode {e : ErrorCode} (h : errorCode e = 5) : e = .eAuth := by
  cases e with
  | eAuth => rfl
  | _ => exact absurd h (by decide)

section
variable {s t : State} (h : exec .gcmdec s = .next t)
include h

theorem eq_raise_eAuth_of_exec_gcmdec (herr : t.status.errcode = 5) : t = raise .eAuth (gcmdecTagged s) := by
  cases h
  obtain ⟨u, -, hend⟩ | ⟨e, u, htagged, hend⟩ := finish_of_holds (gcmdecSteps_ends s)
  · rw [hend, doneOk_status] at herr
    exact absurd herr (by decide)
  · rw [hend] at herr ⊢
    obtain rfl := eq_eAuth_of_errorCode herr
    rw [htagged rfl]

theorem accepts_of_exec_gcmdec (hok : t.status = statusOk) :
    BuffersValid s ∧ s.TagMatches ∧ CipherAnswers s (nchunks s.len.toNat + 2) := by
  cases h
  obtain ⟨u, haccepts, -⟩ | ⟨e, u, -, hend⟩ := finish_of_holds (gcmdecSteps_ends s)
  · exact haccepts
  · rw [hend] at hok
    exact absurd (congrArg Status.ok hok) Bool.false_ne_true

end

/-- Settles O46: both runs end in the state in which the tags are compared, and nothing before it reads TAGIN. -/
theorem authErrorDoesNotTellWhereTheTagsDiffer : Obligations.AuthErrorDoesNotTellWhereTheTagsDiffer := by
  intro s t u x ht hu hterr huerr
  rw [eq_raise_eAuth_of_exec_gcmdec ht hterr, eq_raise_eAuth_of_exec_gcmdec hu huerr]
  rfl

/-- Pass 2 does not read TAGIN. -/
theorem gcmdecLoop_mem_withTagin (s : State) (x : Block) (k : Nat) :
    (gcmdecLoop { s with tagin := x } k).mem = (gcmdecLoop s k).mem :=
  gctrChunksEffect_mem_congr (s := gcmdecTagged { s with tagin := x }) (t := gcmdecTagged s) rfl rfl rfl rfl rfl rfl k

/-- Settles O47: the tag recomputed in pass 1 does not depend on TAGIN, so the other TAGIN is compared with the same bytes. -/
theorem onlyTheLeftmostTagBytesDecide : Obligations.OnlyTheLeftmostTagBytesDecide := by
  intro s t x _ ht hok
  obtain ⟨hv, htag, hc⟩ := accepts_of_exec_gcmdec ht hok
  constructor
  · intro hsame
    have hrun := exec_gcmdec_of_steps (gcmdecSteps_of_answers hv htag hc)
    have hrun' := exec_gcmdec_of_steps (gcmdecSteps_of_answers (s := { s with tagin := x }) hv (htag.trans hsame.symm) hc)
    rw [gcmdecLoop_mem_withTagin] at hrun'
    obtain rfl := Host.Outcome.next.inj (ht.symm.trans hrun)
    exact hrun'
  · intro hother
    have hmismatch : ¬State.TagMatches { s with tagin := x } := fun hmatch => hother (hmatch.symm.trans htag)
    exact ⟨_, exec_gcmdec_of_steps (gcmdecSteps_of_mismatch (s := { s with tagin := x }) hv
      (fun j hj => hc j (by omega)) hmismatch), rfl, rfl⟩

end Sys2Proof.Machine
end

section
/-! ### How a command ends (R210 to R213), and the system commands (R200, R201) -/

namespace Sys2Proof.Machine

/-! #### The errors of the micro-steps -/

/-- The errors of a command: its row of R213's table. -/
def errorsOf : Instr → List ErrorCode
  | .nop | .ghinit | .ghblk | .inc32 | .sreset => []
  | .ghash => [.eAlign, .eRange]
  | .hderive => [.ePrim]
  | .j0derive => [.eRange]
  | .gctr => [.eRange, .ePrim]
  | .gcmcfg _ => [.eTaglen]
  | .gcmenc => [.eRange, .ePrim]
  | .gcmdec => [.eRange, .eAuth, .ePrim]

/-- The micro-steps go on, or raise one of `es`. -/
abbrev Progress.RaisesOnly (es : List ErrorCode) (p : Progress) : Prop := p.Holds (fun _ => True) fun e _ => e ∈ es

section
variable {es : List ErrorCode}

theorem running_raisesOnly (s : State) : (Progress.running s).RaisesOnly es := trivial

theorem raisesOnly_andThen {p : Progress} {next : State → Progress} (hp : p.RaisesOnly es)
    (hn : ∀ s, (next s).RaisesOnly es) : (p.andThen next).RaisesOnly es := holds_andThen hp fun s _ => hn s

theorem raisesOnly_forChunks {body : Nat → State → Progress} (hb : ∀ i s, (body i s).RaisesOnly es) (k : Nat) (s : State) :
    (forChunks body 0 k s).RaisesOnly es :=
  holds_forChunks (I := fun _ _ => True) (fun i t _ => hb i t) k 0 s trivial

theorem requireRange_raisesOnly (hrange : .eRange ∈ es) (a n : Word) (s : State) : (requireRange a n s).RaisesOnly es := by
  unfold requireRange
  split_ifs
  · exact running_raisesOnly _
  · exact hrange

theorem checkBuffers_raisesOnly (hrange : .eRange ∈ es) (s : State) : (checkBuffers s).RaisesOnly es := by
  by_cases hv : BuffersValid s
  · rw [checkBuffers_of_valid hv]; exact running_raisesOnly s
  · rw [checkBuffers_of_invalid hv]; exact hrange

theorem requireTag_raisesOnly (hauth : .eAuth ∈ es) (full : Block) (s : State) : (requireTag full s).RaisesOnly es := by
  unfold requireTag
  split_ifs
  · exact hauth
  · exact running_raisesOnly _

section
variable (hprim : .ePrim ∈ es)
include hprim

theorem raisesOnly_withCipher {next : Block → State → Progress} (hn : ∀ ks s, (next ks s).RaisesOnly es) (b : Block)
    (s : State) : (withCipher b s next).RaisesOnly es := holds_withCipher (fun _ => hprim) fun _ => hn _ _

theorem deriveH_raisesOnly (s : State) : (deriveH s).RaisesOnly es :=
  raisesOnly_withCipher hprim (fun _ _ => running_raisesOnly _) _ _

theorem beginMessage_raisesOnly (s : State) : (beginMessage s).RaisesOnly es :=
  raisesOnly_andThen (deriveH_raisesOnly hprim _) fun _ => running_raisesOnly _

theorem withFullTag_raisesOnly {next : Block → State → Progress} (hn : ∀ full s, (next full s).RaisesOnly es) (s : State) :
    (withFullTag s next).RaisesOnly es := raisesOnly_withCipher hprim (fun _ _ => hn _ _) _ _

theorem gctrChunk_raisesOnly (src dst n i : Nat) (s : State) : (gctrChunk src dst n i s).RaisesOnly es := by
  unfold gctrChunk
  exact raisesOnly_withCipher hprim (fun _ _ => running_raisesOnly _) _ _

theorem gcmencChunk_raisesOnly (i : Nat) (s : State) : (gcmencChunk i s).RaisesOnly es := by
  unfold gcmencChunk
  exact raisesOnly_withCipher hprim (fun _ _ => running_raisesOnly _) _ _

theorem gctrRun_raisesOnly (src dst n : Word) (s : State) : (gctrRun src dst n s).RaisesOnly es :=
  raisesOnly_forChunks (gctrChunk_raisesOnly hprim _ _ _) _ _

end

end

/-! #### The errors of the commands (R213) -/

theorem ghashSteps_raisesOnly (s : State) : (ghashSteps s).RaisesOnly (errorsOf .ghash) := by
  unfold ghashSteps
  split_ifs
  · exact List.mem_cons_self
  · exact raisesOnly_andThen (requireRange_raisesOnly (by decide) _ _ _) fun _ => running_raisesOnly _

theorem j0deriveSteps_raisesOnly (s : State) : (j0deriveSteps s).RaisesOnly (errorsOf .j0derive) :=
  raisesOnly_andThen (requireRange_raisesOnly (by decide) _ _ _) fun _ => running_raisesOnly _

theorem gctrSteps_raisesOnly (s : State) : (gctrSteps s).RaisesOnly (errorsOf .gctr) :=
  raisesOnly_andThen (requireRange_raisesOnly (by decide) _ _ _) fun _ =>
    raisesOnly_andThen (requireRange_raisesOnly (by decide) _ _ _) fun _ => gctrRun_raisesOnly (by decide) _ _ _ _

theorem gcmcfgSteps_raisesOnly (t : Nat) (s : State) : (gcmcfgSteps t s).RaisesOnly (errorsOf (.gcmcfg t)) := by
  unfold gcmcfgSteps
  split_ifs
  · exact running_raisesOnly _
  · exact List.mem_cons_self

theorem gcmencSteps_raisesOnly (s : State) : (gcmencSteps s).RaisesOnly (errorsOf .gcmenc) :=
  raisesOnly_andThen (checkBuffers_raisesOnly (by decide) _) fun _ =>
    raisesOnly_andThen (beginMessage_raisesOnly (by decide) _) fun _ =>
      raisesOnly_andThen (raisesOnly_forChunks (gcmencChunk_raisesOnly (by decide)) _ _) fun _ =>
        withFullTag_raisesOnly (by decide) (fun _ _ => running_raisesOnly _) _

theorem gcmdecSteps_raisesOnly (s : State) : (gcmdecSteps s).RaisesOnly (errorsOf .gcmdec) :=
  raisesOnly_andThen (checkBuffers_raisesOnly (by decide) _) fun _ =>
    raisesOnly_andThen (beginMessage_raisesOnly (by decide) _) fun _ =>
      withFullTag_raisesOnly (by decide) (fun full _ =>
        raisesOnly_andThen (requireTag_raisesOnly (by decide) full _) fun _ => gctrRun_raisesOnly (by decide) _ _ _ _) _

/-! #### The end of a command (R210) -/

/-- The outcome is a next state, with STATUS as `done_ok` or the raise of one of `es` writes it. -/
def EndsOkOrRaises (es : List ErrorCode) (o : Host.Outcome State Fault Refusal) : Prop :=
  ∃ t, o = .next t ∧ (t.status = statusOk ∨ ∃ e ∈ es, t.status = statusError e)

theorem endsOkOrRaises_finish {es : List ErrorCode} {p : Progress} (hp : p.RaisesOnly es) :
    EndsOkOrRaises es (.next p.finish) := by
  refine ⟨_, rfl, ?_⟩
  rcases finish_of_holds hp with ⟨s, -, heq⟩ | ⟨e, s, he, heq⟩
  · exact .inl (heq ▸ doneOk_status s)
  · exact .inr ⟨e, he, heq ▸ raise_status s e⟩

theorem endsOkOrRaises_doneOk (es : List ErrorCode) (s : State) : EndsOkOrRaises es (.next (doneOk s)) :=
  endsOkOrRaises_finish (running_raisesOnly s)

/-- Every command but SRESET, which R210 excepts. -/
theorem exec_endsOkOrRaises {i : Instr} (hi : i ≠ .sreset) (s : State) : EndsOkOrRaises (errorsOf i) (exec i s) := by
  cases i with
  | nop => exact endsOkOrRaises_doneOk _ _
  | ghinit => exact endsOkOrRaises_doneOk _ _
  | ghblk => exact endsOkOrRaises_doneOk _ _
  | ghash => exact endsOkOrRaises_finish (ghashSteps_raisesOnly s)
  | hderive => exact endsOkOrRaises_finish (deriveH_raisesOnly List.mem_cons_self s)
  | j0derive => exact endsOkOrRaises_finish (j0deriveSteps_raisesOnly s)
  | inc32 => exact endsOkOrRaises_doneOk _ _
  | gctr => exact endsOkOrRaises_finish (gctrSteps_raisesOnly s)
  | gcmcfg t => exact endsOkOrRaises_finish (gcmcfgSteps_raisesOnly t s)
  | gcmenc => exact endsOkOrRaises_finish (gcmencSteps_raisesOnly s)
  | gcmdec => exact endsOkOrRaises_finish (gcmdecSteps_raisesOnly s)
  | sreset => exact absurd rfl hi

theorem exec_nop (s : State) : exec .nop s = .next (doneOk s) := rfl

theorem exec_sreset (s : State) : exec .sreset s = .next (resetRegisters s) := rfl

/-- Settles O38: SRESET clears STATUS, and every other command ends by `done_ok` or the raise of an error of its row, whose
codes are those written out. -/
theorem commandsEndByDoneOkOrTheirOwnErrors : Obligations.CommandsEndByDoneOkOrTheirOwnErrors := by
  intro i s
  obtain rfl | hi := eq_or_ne i .sreset
  · exact ⟨_, exec_sreset s, rfl⟩
  · obtain ⟨t, ht, hend⟩ := exec_endsOkOrRaises hi s
    refine ⟨t, ht, ?_⟩
    cases i with
    | sreset => exact absurd rfl hi
    | _ => simpa [errorsOf, statusOk, statusError, errorCode] using hend

/-- Settles O7: each of these endings is a next state. -/
theorem everyCommandAnswersANextState : Obligations.EveryCommandAnswersANextState := by
  intro i s
  obtain ⟨t, ht, -⟩ := commandsEndByDoneOkOrTheirOwnErrors i s
  exact ⟨t, ht⟩

/-! #### NOP and SRESET -/

/-- Settles O21: by NOP's word and `done_ok`. -/
theorem nopWritesStatusOnly : Obligations.NopWritesStatusOnly := ⟨by decide, exec_nop⟩

/-- Settles O22: by SRESET's word and the reset of the registers. -/
theorem sresetResetsEveryRegisterAndKeepsMem : Obligations.SresetResetsEveryRegisterAndKeepsMem := ⟨by decide, exec_sreset⟩

end Sys2Proof.Machine
end

section
/-! ### Exceptions: what each error leaves, and the idle block (R213, R214, R218, R221, R231, R240) -/

namespace Sys2Proof.Machine

/-! #### What each error leaves (R214, R218, R221) -/

/-- Call k from `s` fails, the calls before it answer, and `u` has made the calls up to it and no other. -/
def StoppedAtCall (s : State) (k : Nat) (u : State) : Prop :=
  CipherAnswers s k ∧ callFails s.cipher k = true ∧ ∃ bs, bs.length = k + 1 ∧ u.cipher = afterCalls s.cipher bs

/-- The state `u` in which a command started in `s` may raise each error: `s` itself for a validation error, MEM kept and TAG
cleared for E_AUTH, the first failing call for E_PRIM. -/
def ErrorLeaves (s : State) : ErrorCode → State → Prop
  | .eTaglen, u | .eAlign, u | .eRange, u | .eCmd, u => u = s
  | .eAuth, u => u.mem = s.mem ∧ u.tag = 0
  | .ePrim, u => ∃ k, StoppedAtCall s k u

/-- The micro-steps, started in `s`, go on, or raise an error that leaves what it may. -/
abbrev Progress.ErrorsLeave (s : State) (p : Progress) : Prop := p.Holds (fun _ => True) (ErrorLeaves s)

section
variable {s : State}

theorem ghashSteps_errorsLeave : (ghashSteps s).ErrorsLeave s := by
  unfold ghashSteps
  split_ifs
  · exact rfl
  · by_cases hv : ValidRange s.memSize s.srcaddr s.len
    · rw [requireRange_of_valid hv]; exact trivial
    · rw [requireRange_of_invalid hv]; exact rfl

theorem deriveH_errorsLeave : (deriveH s).ErrorsLeave s := by
  cases hf : callFails s.cipher 0 with
  | true => rw [deriveH_of_fail hf]; exact ⟨0, nofun, hf, _, rfl, rfl⟩
  | false => rw [deriveH_of_answer hf]; exact trivial

theorem j0deriveSteps_errorsLeave : (j0deriveSteps s).ErrorsLeave s := by
  by_cases hv : ValidRange s.memSize s.ivaddr s.ivlen
  · rw [j0deriveSteps_of_valid hv]; exact trivial
  · rw [j0deriveSteps_of_invalid hv]; exact rfl

theorem gcmcfgSteps_errorsLeave (x : Nat) : (gcmcfgSteps x s).ErrorsLeave s := by
  unfold gcmcfgSteps
  split_ifs
  · exact trivial
  · exact rfl

/-- GCTR: the ranges are checked first; call k is chunk k's. -/
theorem gctrSteps_errorsLeave : (gctrSteps s).ErrorsLeave s := by
  by_cases hv : ValidRange s.memSize s.srcaddr s.len ∧ ValidRange s.memSize s.dstaddr s.len
  · obtain ⟨hsrc, hdst⟩ := hv
    rw [gctrSteps_of_valid hsrc hdst]
    obtain hall | ⟨k, hk, hc, hf⟩ := cipherAnswers_or_first_fail s (nchunks s.len.toNat)
    · rw [gctrRun_of_answers hall]; exact trivial
    · have hcalls : afterCalls (gctrChunksEffect s k).cipher [inc32^[k] s.cb] =
          afterCalls s.cipher (counterBlocks s.cb k ++ [inc32^[k] s.cb]) := by
        rw [gctrChunksEffect_frame, afterCalls_afterCalls]
      rw [gctrRun_of_fail hk hc hf]
      exact ⟨k, hc, hf, _, by simp, hcalls⟩
  · rw [gctrSteps_of_invalid hv]; exact rfl

/-- GCMENC: the ranges are checked first; call 0 is the subkey's, call i + 1 chunk i's, and the last the tag's. -/
theorem gcmencSteps_errorsLeave : (gcmencSteps s).ErrorsLeave s := by
  by_cases hv : BuffersValid s
  · obtain hall | ⟨k, hk, hc, hf⟩ := cipherAnswers_or_first_fail s (nchunks s.len.toNat + 2)
    · rw [gcmencSteps_of_answers hv hall]; exact trivial
    · match k with
      | 0 =>
        rw [gcmencSteps_of_subkey_fail hv hf]
        exact ⟨0, hc, hf, _, rfl, rfl⟩
      | i + 1 =>
        obtain rfl | hi : i = nchunks s.len.toNat ∨ i < nchunks s.len.toNat := by omega
        · rw [gcmencSteps_of_tag_fail hv hc hf]
          exact ⟨_, hc, hf, _, by simp, rfl⟩
        · rw [gcmencSteps_of_chunk_fail hv hi hc hf]
          exact ⟨_, hc, hf, _, by simp, rfl⟩
  · rw [gcmencSteps_eq, messageSteps_of_invalid _ hv]; exact rfl

/-- GCMDEC: the ranges are checked first; call 0 is the subkey's, call 1 the tag's, and on a match call i + 2 chunk i's. The tags
are compared before the first write of MEM, with TAG cleared. -/
theorem gcmdecSteps_errorsLeave : (gcmdecSteps s).ErrorsLeave s := by
  by_cases hv : BuffersValid s
  · have hmismatch (hc : CipherAnswers s 2) (htag : ¬s.TagMatches) : (gcmdecSteps s).ErrorsLeave s := by
      rw [gcmdecSteps_of_mismatch hv hc htag]
      exact ⟨rfl, rfl⟩
    obtain hall | ⟨k, hk, hc, hf⟩ := cipherAnswers_or_first_fail s (nchunks s.len.toNat + 2)
    · by_cases htag : s.TagMatches
      · rw [gcmdecSteps_of_answers hv htag hall]; exact trivial
      · exact hmismatch (fun j hj => hall j (by omega)) htag
    · match k with
      | 0 =>
        rw [gcmdecSteps_of_subkey_fail hv hf]
        exact ⟨0, hc, hf, _, rfl, rfl⟩
      | 1 =>
        rw [gcmdecSteps_of_tag_fail hv (hc 0 one_pos) hf]
        exact ⟨1, hc, hf, _, rfl, rfl⟩
      | i + 2 =>
        by_cases htag : s.TagMatches
        · rw [gcmdecSteps_of_chunk_fail hv htag (by omega) hc hf]
          exact ⟨_, hc, hf, _, by simp, rfl⟩
        · exact hmismatch (fun j hj => hc j (by omega)) htag
  · rw [gcmdecSteps_eq, messageSteps_of_invalid _ hv]; exact rfl

/-! #### How a command ends -/

/-- STATUS reports no error, or the end `t` of command `i`, started in `s`, is the raise of one of its errors, which has left what
it may. -/
def EndsCleanOrRaises (i : Instr) (s t : State) : Prop :=
  t.status.errcode = 0 ∨ ∃ e ∈ errorsOf i, ∃ u, ErrorLeaves s e u ∧ t = raise e u

theorem endsCleanOrRaises_finish {i : Instr} {p : Progress} (hraises : p.RaisesOnly (errorsOf i)) (hleaves : p.ErrorsLeave s) :
    EndsCleanOrRaises i s p.finish := by
  cases p with
  | running u => exact .inl rfl
  | raised e u => exact .inr ⟨e, hraises, u, hleaves, rfl⟩

/-- What the end of every command can be. -/
theorem exec_endsCleanOrRaises {i : Instr} {t : State} (h : exec i s = .next t) : EndsCleanOrRaises i s t := by
  cases i with
  | nop => cases h; exact .inl rfl
  | ghinit => cases h; exact .inl rfl
  | ghblk => cases h; exact .inl rfl
  | inc32 => cases h; exact .inl rfl
  | sreset => cases h; exact .inl rfl
  | ghash => cases h; exact endsCleanOrRaises_finish (ghashSteps_raisesOnly s) ghashSteps_errorsLeave
  | hderive => cases h; exact endsCleanOrRaises_finish (deriveH_raisesOnly List.mem_cons_self s) deriveH_errorsLeave
  | j0derive => cases h; exact endsCleanOrRaises_finish (j0deriveSteps_raisesOnly s) j0deriveSteps_errorsLeave
  | gctr => cases h; exact endsCleanOrRaises_finish (gctrSteps_raisesOnly s) gctrSteps_errorsLeave
  | gcmcfg x => cases h; exact endsCleanOrRaises_finish (gcmcfgSteps_raisesOnly x s) (gcmcfgSteps_errorsLeave x)
  | gcmenc => cases h; exact endsCleanOrRaises_finish (gcmencSteps_raisesOnly s) gcmencSteps_errorsLeave
  | gcmdec => cases h; exact endsCleanOrRaises_finish (gcmdecSteps_raisesOnly s) gcmdecSteps_errorsLeave

/-- The codes are numbered from 1 in the order of the errors (R213). -/
theorem errorCode_injective : Function.Injective errorCode :=
  Function.LeftInverse.injective (g := fun c => ErrorCode.ofNat (c.toNat - 1)) fun e => by cases e <;> rfl

/-- A command that reports the code of `e` has raised `e`, which is one of its errors. -/
theorem raises_of_errcode {i : Instr} {t : State} {e : ErrorCode} (h : exec i s = .next t)
    (hcode : t.status.errcode = errorCode e) : e ∈ errorsOf i ∧ ∃ u, ErrorLeaves s e u ∧ t = raise e u := by
  obtain hzero | ⟨e', he', u, hu, rfl⟩ := exec_endsCleanOrRaises h
  · have hne : errorCode e ≠ 0 := by cases e <;> decide
    exact absurd (hcode.symm.trans hzero) hne
  · obtain rfl : e' = e := errorCode_injective hcode
    exact ⟨he', u, hu, rfl⟩

/-- A command that reports a validation error has raised it in the state it started in (R214). -/
theorem raises_of_validation_errcode {i : Instr} {t : State} (h : exec i s = .next t)
    (hcode : t.status.errcode ∈ [1#4, 2#4, 3#4, 4#4]) : ∃ e, t = raise e s := by
  obtain hzero | ⟨e, -, u, hu, rfl⟩ := exec_endsCleanOrRaises h
  · rw [hzero] at hcode
    exact absurd hcode (by decide)
  · have hvalidation : errorCode e ∈ [1#4, 2#4, 3#4, 4#4] := hcode
    cases e with
    | eAuth => exact absurd hvalidation (by decide)
    | ePrim => exact absurd hvalidation (by decide)
    | _ => obtain rfl := hu; exact ⟨_, rfl⟩

theorem eq_gcmdec_of_eAuth_mem {i : Instr} (h : .eAuth ∈ errorsOf i) : i = .gcmdec := by
  cases i with
  | gcmdec => rfl
  | _ => exact absurd h (by simp [errorsOf])

end

/-- Settles O40: a rejected word raises E_CMD at once, and a command raises its validation errors in the state it started in. -/
theorem validationErrorsChangeOnlyStatus : Obligations.ValidationErrorsChangeOnlyStatus := by
  intro s t w rest hhost hstep hcode
  rw [step_of_cmd_write hhost] at hstep
  have hend : ∃ e, t = raise e { s with host := rest, reply := .nothing } := by
    cases hd : decodeWord w with
    | rejected e =>
      rw [command_of_rejected hd] at hstep
      exact ⟨.eCmd, (Host.Outcome.next.inj hstep).symm⟩
    | instr i =>
      rw [command_of_decodes hd] at hstep
      exact raises_of_validation_errcode hstep hcode
  obtain ⟨e, rfl⟩ := hend
  rfl

/-- Settles O41: code 5 is E_AUTH's, which only GCMDEC has, and E_AUTH leaves MEM as it was and TAG cleared. -/
theorem authErrorReleasesNothing : Obligations.AuthErrorReleasesNothing := by
  intro i s t h hcode
  obtain ⟨hmem, u, ⟨hkept, htag⟩, rfl⟩ := raises_of_errcode (e := .eAuth) h hcode
  exact ⟨eq_gcmdec_of_eAuth_mem hmem, hkept, htag⟩

/-- Settles O48: code 6 is E_PRIM's, raised at the first failing call, and the raise itself makes none. -/
theorem primErrorIsTheFirstFailingCall : Obligations.PrimErrorIsTheFirstFailingCall := by
  intro i s t h hcode
  obtain ⟨-, u, ⟨k, hc, hf, bs, hlen, hcalls⟩, rfl⟩ := raises_of_errcode (e := .ePrim) h hcode
  have hcipher : (raise .ePrim u).cipher = afterCalls s.cipher bs := hcalls
  refine ⟨k, hf, hc, ?_, ?_⟩
  · rw [hcipher, afterCalls, List.length_append, hlen, Nat.add_assoc]
  · rw [hcipher, afterCalls, hlen]

/-! #### The idle block (R231, R240) -/

/-- Settles O5: with no access at the head of the list the step takes none. -/
theorem idleKeepsAllState : Obligations.IdleKeepsAllState := by
  intro s hidle
  unfold step
  rw [hidle]

end Sys2Proof.Machine
end
